-- ==== Sys2Proof/Word.lean ====
section
/-! DEFINITION. The word type, the widths of the control fields, and the plain data at the core's input ports. -/

namespace Sys2Proof

/-- A word: 32 bits, unsigned, bit 0 the least significant (R7). Its `+` is addition modulo 2^32 (R8). -/
abbrev Word := BitVec 32

/-- A byte of a message or of a digest (R30, R31). -/
abbrev Byte := BitVec 8

/-- The round counter's register width, 7 bits (R17, decision D4 of the spec). -/
abbrev Round := BitVec 7

/-- The selector word `sel`, format SEL10 (R52). -/
abbrev Sel := BitVec 10

/-- A 512-bit message block as 16 words, word 0 first (R29, R48). -/
abbrev Block := Vector Word 16

/-- The contents of the schedule window `w[0..15]` (R19). -/
abbrev Window := Vector Word 16

/-- The block of 16 zero words, `START ZERO` (R59). -/
def Block.zero : Block := Vector.replicate 16 0

/-- The block of 16 words 0xffffffff, `START ONES` (R59). -/
def Block.ones : Block := Vector.replicate 16 0xffffffff

/-- One input event, sampled at one rising edge: `in = (rst, start, block)` (R51). -/
structure InputEvent where
  /-- The reset line, active high (R46). -/
  rst   : Bool
  /-- The start level (R47). -/
  start : Bool
  /-- The block at the input port (R48). -/
  block : Block
  deriving DecidableEq, Repr, Inhabited

end Sys2Proof
end

