-- ==== Sys2Proof/Machine/Flags.lean ====
section
/-! DEFINITION. The one flag of the core, `done` (R18): what each kind of operation writes into it. There are no condition
codes, and additions set no carry (R18, R61). -/

namespace Sys2Proof.Machine

/-- RESET and LOAD clear `done` (R72, R73). -/
def doneAfterLoading : Bool := false

/-- ROUND_LO, ROUND_EXP and HOLD do not write `done` (R75, R76, R78). -/
def doneKept (done : Bool) : Bool := done

/-- ROUND_LAST sets `done` (R77). -/
def doneAfterLastRound : Bool := true

end Sys2Proof.Machine
end

