-- ==== Sys2Proof/Machine/RoundFunction.lean ====
section
/-! DEFINITION. The round function of 40_round_function.md: pure functions of words (R60). -/

namespace Sys2Proof.Machine

/-- `add32(x, y) = (x + y) mod 2^32`; the carry out of bit 31 is discarded (R61). -/
def add32 (x y : Word) : Word := BitVec.ofNat 32 (x.toNat + y.toNat)

/-- A sum of several words: the left-to-right fold of `add32` (R61). -/
def sum32 (xs : List Word) : Word := xs.foldl add32 0

/-- `rotr(x, n)`: with `m = n mod 32`, `(x >> m) | ((x << (32 - m)) mod 2^32)` (R63). -/
def rotr (x : Word) (n : Nat) : Word := (x >>> (n % 32)) ||| (x <<< (32 - n % 32))

/-- `x >> n`, the logical shift right (R64). -/
def shr (x : Word) (n : Nat) : Word := x >>> n

/-- `ch(x, y, z) = (x & y) ^ (~x & z)` (R65). -/
def ch (x y z : Word) : Word := (x &&& y) ^^^ (~~~x &&& z)

/-- `maj(x, y, z) = (x & y) ^ (x & z) ^ (y & z)` (R66). -/
def maj (x y z : Word) : Word := (x &&& y) ^^^ (x &&& z) ^^^ (y &&& z)

/-- `sigma0(x)`, applied to `a` (R67). -/
def sigma0 (x : Word) : Word := rotr x 2 ^^^ rotr x 13 ^^^ rotr x 22

/-- `sigma1(x)`, applied to `e` (R68). -/
def sigma1 (x : Word) : Word := rotr x 6 ^^^ rotr x 11 ^^^ rotr x 25

/-- `gamma0(x)`, applied to the entry 15 rounds back (R69). -/
def gamma0 (x : Word) : Word := rotr x 7 ^^^ rotr x 18 ^^^ shr x 3

/-- `gamma1(x)`, applied to the entry 2 rounds back (R70). -/
def gamma1 (x : Word) : Word := rotr x 17 ^^^ rotr x 19 ^^^ shr x 10

end Sys2Proof.Machine
end

