-- ==== Sys2Proof/Config.lean ====
section
/-! DEFINITION. The free values: what the spec leaves open. None has a body, so no proof can see what it is. -/

namespace Sys2Proof

/-- The spec's OPEN parameter `ResetWindow` (R6, R24; decision D3 of the spec): the value with which the field
`State.resetWindow` starts. Log entry 1: DESIGN CHOICE. -/
opaque Config.resetWindow : Window

/-- The input event the environment drives at an edge, by the edge's number, once the written stimulus is used up: every event
is admitted (R122). Log entry 2: DESIGN CHOICE. -/
opaque Config.freeInput : Nat → InputEvent

end Sys2Proof
end

