-- ==== Sys2Proof/Syntax.lean ====
section
/-! DEFINITION. The operations of the core, one constructor per row of spec/opcode_table.json. -/

namespace Sys2Proof

/-- An operation together with the selector bits its table row leaves free (R52, R53). These bits are the event's `start`
and the state's `done` and `round` as the selector shows them. They are carried so that no bit of an encoding is lost; no
meaning reads them, since the operands come from the state and from the input event (R57). Log entry 3: DESIGN CHOICE. -/
inductive Instr where
  /-- RESET, `1xxxxxxxxx` (R72). -/
  | reset (start done : Bool) (round : Round)
  /-- LOAD, `01xxxxxxxx` (R73). -/
  | load (done : Bool) (round : Round)
  /-- HOLD, `001rrrrrrr` with `round` = 64 (R78, R54). -/
  | hold (round : Round)
  /-- ROUND_LO, `000000rrrr` (R75). -/
  | roundLo (round : BitVec 4)
  /-- ROUND_LAST, `0000111111` (R77). -/
  | roundLast
  /-- ROUND_EXP, `000rrrrrrr` with 16 ≤ `round` ≤ 62 (R76). -/
  | roundExp (round : Round)
  deriving DecidableEq, Repr

end Sys2Proof
end

