-- ==== Sys2Proof/WellFormed.lean ====
section
/-! DEFINITION. Which operations the decode table admits: the guards of R53 and R54. -/

namespace Sys2Proof

/-- HOLD's guard: in a Valid state `done` = 1 goes with `round` = 64 only (R54, R55). -/
def holdGuard (round : Round) : Bool := round == 64#7

/-- ROUND_EXP's guard: 16 ≤ `round` ≤ 62 (R53). -/
def roundExpGuard (round : Round) : Bool := decide (16 ≤ round.toNat ∧ round.toNat ≤ 62)

/-- An operation is well formed when its row's guard holds of the round it carries (R53, R54). -/
def Instr.wellFormed : Instr → Bool
  | .reset _ _ _ => true
  | .load _ _ => true
  | .hold round => holdGuard round
  | .roundLo _ => true
  | .roundLast => true
  | .roundExp round => roundExpGuard round

end Sys2Proof
end

