-- ==== Sys2Proof/Decode.lean ====
section
/-! DEFINITION. The selector word, its decoder and its encoder (R52, R53, R54, R55), and the decode table as data. -/

namespace Sys2Proof

/-- The selector word `sel = (rst, start, done, round[6:0])`, `rst` in bit 9 (R52). -/
def packSelector (rst start done : Bool) (round : Round) : Sel :=
  BitVec.ofBool rst ++ BitVec.ofBool start ++ BitVec.ofBool done ++ round

/-- `sel[9]` (R52). -/
def Sel.rst (sel : Sel) : Bool := sel.getLsbD 9

/-- `sel[8]` (R52). -/
def Sel.start (sel : Sel) : Bool := sel.getLsbD 8

/-- `sel[7]` (R52). -/
def Sel.done (sel : Sel) : Bool := sel.getLsbD 7

/-- `sel[6:0]` (R52). -/
def Sel.round (sel : Sel) : Round := sel.extractLsb' 0 7

/-- Why a selector word has no operation (R55). -/
inductive Reserved where
  /-- `rst` = `start` = `done` = 0 with `round` in 64..127. -/
  | computingPast63
  /-- `rst` = `start` = 0 and `done` = 1 with `round` ≠ 64. -/
  | doneNotAt64
  deriving DecidableEq, Repr

/-- The priority table of R53 with the guards of R54; what is left is reserved (R55). -/
def decode (sel : Sel) : Except Reserved Instr :=
  if sel &&& 0x200#10 = 0x200#10 then .ok (.reset sel.start sel.done sel.round)
  else if sel &&& 0x300#10 = 0x100#10 then .ok (.load sel.done sel.round)
  else if sel &&& 0x380#10 = 0x080#10 then
    if holdGuard sel.round then .ok (.hold sel.round) else .error .doneNotAt64
  else if sel &&& 0x3F0#10 = 0x000#10 then .ok (.roundLo (sel.extractLsb' 0 4))
  else if sel &&& 0x3FF#10 = 0x03F#10 then .ok .roundLast
  else if sel &&& 0x380#10 = 0x000#10 ∧ roundExpGuard sel.round then .ok (.roundExp sel.round)
  else .error .computingPast63

/-- The selector word of an operation, from the encoding column of the opcode table (R52, R53). -/
def encode : Instr → Sel
  | .reset start done round => packSelector true start done round
  | .load done round => packSelector false true done round
  | .hold round => packSelector false false true round
  | .roundLo round => 0b000000#6 ++ round
  | .roundLast => 0b0000111111#10
  | .roundExp round => packSelector false false false round

/-- The instruction that `decode` reads from a table word: the selector has 10 bits, so a word with a one above bit 9 is no
instruction. `nbits` is the width the table gives the row, rounded up to whole bytes. Log entry 6: DESIGN CHOICE. -/
def decodeTableWord (nbits w : Nat) : Option Instr :=
  let v := w % 2 ^ nbits
  if v < 2 ^ 10 then
    match decode (BitVec.ofNat 10 v) with
    | .ok i => some i
    | .error _ => none
  else none

/-- The guard column of the opcode table. -/
inductive RowGuard where
  /-- No guard, or one that the mask already says. -/
  | none
  /-- HOLD: `round` = 64, the Valid state. -/
  | roundIs64
  /-- ROUND_EXP: 16 ≤ `round` ≤ 62. -/
  | round16to62
  deriving DecidableEq, Repr

/-- One row of the decode table of R53. -/
structure Row where
  mnemonic : String
  matchBits : Sel
  mask : Sel
  guard : RowGuard
  deriving DecidableEq, Repr

/-- The decode table of R53 in its priority order. -/
def decodeTable : List Row :=
  [ ⟨"RESET", 0x200#10, 0x200#10, .none⟩,
    ⟨"LOAD", 0x100#10, 0x300#10, .none⟩,
    ⟨"HOLD", 0x080#10, 0x380#10, .roundIs64⟩,
    ⟨"ROUND_LO", 0x000#10, 0x3F0#10, .none⟩,
    ⟨"ROUND_LAST", 0x03F#10, 0x3FF#10, .none⟩,
    ⟨"ROUND_EXP", 0x000#10, 0x380#10, .round16to62⟩ ]

/-- Whether a guard holds of a selector word. -/
def RowGuard.holds (g : RowGuard) (sel : Sel) : Bool :=
  match g with
  | .none => true
  | .roundIs64 => holdGuard sel.round
  | .round16to62 => roundExpGuard sel.round

/-- Whether a row applies to a selector word: its match under its mask, and its guard. -/
def Row.applies (r : Row) (sel : Sel) : Bool := (sel &&& r.mask == r.matchBits) && r.guard.holds sel

/-- The table's mnemonic of an operation. -/
def Instr.mnemonic : Instr → String
  | .reset _ _ _ => "RESET"
  | .load _ _ => "LOAD"
  | .hold _ => "HOLD"
  | .roundLo _ => "ROUND_LO"
  | .roundLast => "ROUND_LAST"
  | .roundExp _ => "ROUND_EXP"

end Sys2Proof
end

