-- ==== Sys2Proof/Machine/Registers.lean ====
section
/-! DEFINITION. The core's register record (R13) and the values that Loading writes into it (R24, R73). -/

namespace Sys2Proof.Machine

/-- The working registers `a..h_reg`, in the index order of R16. -/
structure Working where
  a : Word
  b : Word
  c : Word
  d : Word
  e : Word
  f : Word
  g : Word
  hReg : Word
  deriving DecidableEq, Repr

/-- `wr[i] = v[i]` for i in 0..7, in the order of R16. -/
def Working.ofVector (v : Vector Word 8) : Working :=
  ⟨v[0], v[1], v[2], v[3], v[4], v[5], v[6], v[7]⟩

/-- The working registers as `wr[0..7]` (R16). -/
def Working.toVector (x : Working) : Vector Word 8 :=
  #v[x.a, x.b, x.c, x.d, x.e, x.f, x.g, x.hReg]

/-- The core's whole mutable state (R13): "Nothing else is stored". -/
structure CoreRegs where
  /-- The hash accumulators `h[0..7]` (R14). -/
  h : Vector Word 8
  /-- The working registers `a..h_reg` (R15, R16). -/
  wr : Working
  /-- The round counter (R17). -/
  round : Round
  /-- The completion flag, which is also the output port `done` (R18, R49). -/
  done : Bool
  /-- The schedule window `w[0..15]` (R19). -/
  w : Window
  deriving DecidableEq, Repr

/-- The Loading values with a window: `h` and the working registers are `H0`, `round` is 0, `done` is 0 (R24, R73). -/
def loadingRegs (window : Window) : CoreRegs where
  h := H0
  wr := Working.ofVector H0
  round := 0
  done := false
  w := window

end Sys2Proof.Machine
end

