-- ==== Sys2Proof/Machine/State.lean ====
section
/-! DEFINITION. The machine's state: the core's register record of R13 and the model's own fields beside it. The outcomes a step
may stop with, and the state right after reset (R24). -/

namespace Sys2Proof.Machine

/-- The core and what a step needs beside it. -/
structure State where
  /-- The values held in the core's registers, the spec's `cur` (R9, R13). -/
  cur : CoreRegs
  /-- The model's own: the spec's OPEN parameter `ResetWindow` (R24, R72). No step writes it. Log entry 1: DESIGN CHOICE. -/
  resetWindow : Window
  /-- The model's own: the input events still to be sampled, one per edge, the next one first (R39, R58). Log entry 2: DESIGN CHOICE. -/
  stimulus : List InputEvent
  /-- The model's own: how many edges have passed (R11, R45). It only indexes the free input. Log entry 2: DESIGN CHOICE. -/
  edge : Nat
  deriving DecidableEq, Repr

/-- Faults: there are none. No operation raises an exception, and every one of them is a total function (R60, R71, R97). -/
inductive Fault where
  deriving DecidableEq, Repr

/-- Why a step has no next state. -/
inductive Refusal where
  /-- An operation that has no meaning yet, by its mnemonic. Raised by `exec` alone; safe. No operation is left so. -/
  | notModelled (mnemonic : String)
  /-- The selector word of this edge is reserved: a state that is not Valid, with `rst` = `start` = 0 (R55: a model "gives them
  no step"). Raised by `step`; safe. Log entry 4: DEDUCED. -/
  | reservedSelector (reason : Reserved)
  deriving DecidableEq, Repr

/-- The machine right after a RESET edge (R24, R25), with no stimulus written down yet. The window is the OPEN parameter
`ResetWindow`, here the free constant `Config.resetWindow`. Log entries 1, 2 (DESIGN CHOICE) and 12 (DEDUCED). -/
def State.reset : State where
  cur := loadingRegs Config.resetWindow
  resetWindow := Config.resetWindow
  stimulus := []
  edge := 0

end Sys2Proof.Machine
end

