-- ==== Sys2Proof/Machine/Operands.lean ====
section
/-! DEFINITION. The operand forms of R57: the sampled input event, the schedule word, the expansion and the shift of the window. -/

namespace Sys2Proof.Machine

/-- The input event sampled k edges from now: the stimulus line for that edge, and a free event once the stimulus is used up
(R39, R51, R58, R122). Log entry 2: DESIGN CHOICE. -/
def State.eventAt (s : State) (k : Nat) : InputEvent :=
  match s.stimulus[k]? with
  | some e => e
  | none => Config.freeInput (s.edge + k)

/-- The input event `in` sampled at the next rising edge (R9, R51). -/
def State.inEvent (s : State) : InputEvent := s.eventAt 0

/-- The selector word of the next edge: `rst` and `start` from the event, `done` and `round` from the registers (R52). -/
def State.selector (s : State) : Sel :=
  packSelector s.inEvent.rst s.inEvent.start s.cur.done s.cur.round

/-- `Expand(w) = gamma1(w[14]) + w[9] + gamma0(w[1]) + w[0]`, on the window before the shift (R88). -/
def expand (w : Window) : Word := sum32 [gamma1 w[14], w[9], gamma0 w[1], w[0]]

/-- `Shift(w, x)`: every entry one place down, `x` appended at entry 15 (R89). -/
def shift (w : Window) (x : Word) : Window :=
  #v[w[1], w[2], w[3], w[4], w[5], w[6], w[7], w[8], w[9], w[10], w[11], w[12], w[13], w[14], w[15], x]

/-- `Sched(cur, t)`, the schedule word of round t: window entry t, then the expanded word, and 0 from 64 on (R87). -/
def sched (w : Window) (t : Nat) : Word :=
  if h : t < 16 then w[t] else if t < 64 then expand w else 0

end Sys2Proof.Machine
end

