-- ==== Sys2Proof/Machine/Ops.lean ====
section
/-! DEFINITION. The operations the meanings share: committing an edge, the Loading values, the round update, the final
accumulation. The core has no memory and takes no exception (R26, R102), so there is neither a memory operation nor an exception
entry or return here. Every right-hand side reads `cur` (R9). -/

namespace Sys2Proof.Machine

/-- One rising edge: all of `nxt` is committed at once, one input event is used up, one edge is counted (R38, R45, R56, R121). -/
def State.commit (s : State) (nxt : CoreRegs) : State where
  cur := nxt
  resetWindow := s.resetWindow
  stimulus := s.stimulus.tail
  edge := s.edge + 1

/-- What RESET and LOAD write: the Loading values with the given window (R72, R73). -/
def opLoading (window : Window) : CoreRegs :=
  { loadingRegs window with done := doneAfterLoading }

/-- `temp1 = h_reg + sigma1(e) + ch(e, f, g) + K(t) + Wt`, combinational (R74, R22). -/
def temp1 (x : Working) (k wt : Word) : Word :=
  sum32 [x.hReg, sigma1 x.e, ch x.e x.f x.g, k, wt]

/-- `temp2 = sigma0(a) + maj(a, b, c)`, combinational (R74, R22). -/
def temp2 (x : Working) : Word := sum32 [sigma0 x.a, maj x.a x.b x.c]

/-- The working registers after one round (R74). -/
def mixWorking (x : Working) (k wt : Word) : Working where
  hReg := x.g
  g := x.f
  f := x.e
  e := add32 x.d (temp1 x k wt)
  d := x.c
  c := x.b
  b := x.a
  a := add32 (temp1 x k wt) (temp2 x)

/-- `RoundUpdate(cur, t, Wt)` with t = `cur.round`: the working registers and `round <- t + 1`; nothing else (R74). -/
def roundUpdate (cur : CoreRegs) (wt : Word) : CoreRegs :=
  { cur with wr := mixWorking cur.wr (kConst cur.round.toNat) wt, round := cur.round + 1 }

/-- The round of ROUND_EXP and of ROUND_LAST: the expanded word is used in the round that appends it (R76, R88, R89). -/
def expandedRound (cur : CoreRegs) : CoreRegs :=
  { roundUpdate cur (expand cur.w) with w := shift cur.w (expand cur.w) }

/-- `h[i] + wr[i]` for i in 0..7 (R77, R16). -/
def accumulate (h : Vector Word 8) (x : Working) : Vector Word 8 :=
  #v[add32 h[0] x.a, add32 h[1] x.b, add32 h[2] x.c, add32 h[3] x.d,
     add32 h[4] x.e, add32 h[5] x.f, add32 h[6] x.g, add32 h[7] x.hReg]

/-- The state whose next edge shows the selector word `sel`: `rst` and `start` on the next input event, `done` and `round` in the
registers (R52). The block at the port is the one already there, and 16 zero words where no event is written.
Log entry 11: DESIGN CHOICE. -/
def State.placeSelector (s : State) (sel : Sel) : State where
  cur := { s.cur with done := sel.done, round := sel.round }
  resetWindow := s.resetWindow
  stimulus := ⟨sel.rst, sel.start, (s.stimulus.head?.map InputEvent.block).getD Block.zero⟩ :: s.stimulus.tail
  edge := s.edge

end Sys2Proof.Machine
end

