-- ==== Sys2Proof/Machine/Control.lean ====
section
/-! DEFINITION. The meanings of RESET, LOAD and HOLD (41_controller.md). -/

namespace Sys2Proof.Machine

/-- RESET (R72): the Loading values with the window `ResetWindow`. The block at the port is not loaded (R101). -/
def execReset (s : State) : Host.Outcome State Fault Refusal :=
  .next (s.commit (opLoading s.resetWindow))

/-- LOAD (R73): the Loading values with the window taken verbatim from the sampled block. -/
def execLoad (s : State) : Host.Outcome State Fault Refusal :=
  .next (s.commit (opLoading s.inEvent.block))

/-- HOLD (R78): `nxt <- cur`. -/
def execHold (s : State) : Host.Outcome State Fault Refusal :=
  .next (s.commit { s.cur with done := doneKept s.cur.done })

end Sys2Proof.Machine
end

