-- ==== Sys2Proof/Machine/Rounds.lean ====
section
/-! DEFINITION. The meanings of ROUND_LO, ROUND_LAST and ROUND_EXP (41_controller.md). The round index is `cur.round`, not a field of
the operation (R57). -/

namespace Sys2Proof.Machine

/-- ROUND_LO (R75): the round update with the schedule word of `cur.round`, which is window entry `cur.round` in rounds 0 to 15;
the window, `h` and `done` stay. Log entry 5: DESIGN CHOICE. -/
def execRoundLo (s : State) : Host.Outcome State Fault Refusal :=
  .next (s.commit { roundUpdate s.cur (sched s.cur.w s.cur.round.toNat) with done := doneKept s.cur.done })

/-- ROUND_LAST (R77): as ROUND_EXP, and the new working registers are added to the old `h`, and `done` is set. -/
def execRoundLast (s : State) : Host.Outcome State Fault Refusal :=
  let nxt := expandedRound s.cur
  .next (s.commit { nxt with h := accumulate s.cur.h nxt.wr, done := doneAfterLastRound })

/-- ROUND_EXP (R76): the round update with the expanded word, and the window shifts; `h` and `done` stay. -/
def execRoundExp (s : State) : Host.Outcome State Fault Refusal :=
  .next (s.commit { expandedRound s.cur with done := doneKept s.cur.done })

end Sys2Proof.Machine
end

