-- ==== Sys2Proof/Machine/Dispatch.lean ====
section
/-! DEFINITION. One arm per operation. -/

namespace Sys2Proof.Machine

def exec (i : Instr) (s : State) : Host.Outcome State Fault Refusal :=
  match i with
  | .reset _ _ _ => Sys2Proof.Machine.execReset s
  | .load _ _ => Sys2Proof.Machine.execLoad s
  | .hold _ => Sys2Proof.Machine.execHold s
  | .roundLo _ => Sys2Proof.Machine.execRoundLo s
  | .roundLast => Sys2Proof.Machine.execRoundLast s
  | .roundExp _ => Sys2Proof.Machine.execRoundExp s

end Sys2Proof.Machine
end

