-- ==== Sys2Proof/Machine/Step.lean ====
section
/-! DEFINITION. One rising edge of the clock (R71): the selector word is formed and decoded, and its operation is done. -/

namespace Sys2Proof.Machine

/-- `step(cur, in) = nxt` (R71). A reserved selector word has no step (R55). -/
def step (s : State) : Host.Outcome State Fault Refusal :=
  match decode s.selector with
  | .ok i => exec i s
  | .error r => .refused (.reservedSelector r)

/-- The core fetches no instruction (R42): its next operation is selected by the next input event and by `done` and `round`
(R52). This sets those four so that the next edge shows the table word `w`. Log entries 6 and 11: DESIGN CHOICE. -/
def State.withFetchWord (s : State) (nbits w : Nat) : State :=
  s.placeSelector (BitVec.ofNat 10 (w % 2 ^ nbits))

end Sys2Proof.Machine
end

