-- ==== Sys2Proof/Machine/Reference.lean ====
section
/-! DEFINITION. What the core's run on a block is held against: the whole message schedule `W[0..63]` (R86), the working registers after
t rounds and the compression of a block (R84). The core stores none of this; no meaning uses this file. -/

namespace Sys2Proof.Machine

/-- The schedule word after a list of words, with t the list's length: `gamma1(W[t-2]) + W[t-7] + gamma0(W[t-15]) + W[t-16]`
(R86). -/
def nextScheduleWord (ws : List Word) : Word :=
  sum32 [gamma1 (ws.getD (ws.length - 2) 0), ws.getD (ws.length - 7) 0,
    gamma0 (ws.getD (ws.length - 15) 0), ws.getD (ws.length - 16) 0]

/-- `W[0..15 + n]`: the block's words and n expanded words (R86). -/
def scheduleTo (block : Block) : Nat → List Word
  | 0 => block.toList
  | n + 1 => scheduleTo block n ++ [nextScheduleWord (scheduleTo block n)]

/-- `W[t]` of a block, for t in 0..63 (R86). -/
def refSched (block : Block) (t : Nat) : Word := (scheduleTo block 48).getD t 0

/-- The working registers after t rounds of `RoundUpdate` from `H0` with the schedule of the block (R84). -/
def refWorking (block : Block) : Nat → Working
  | 0 => Working.ofVector H0
  | t + 1 => mixWorking (refWorking block t) (kConst t) (refSched block t)

/-- The SHA-256 compression of a block from `H0`: `H0[i] + wr[i]` after 64 rounds (R84). -/
def compress (block : Block) : Vector Word 8 := accumulate H0 (refWorking block 64)

/-- The window at the start of round t: `W[i]` up to t = 16, `W[t - 16 + i]` from 16 on (R91). -/
def refWindow (block : Block) (t : Nat) : Window :=
  Vector.ofFn fun i => refSched block (t - 16 + i.val)

/-- The registers t edges after a block was launched, t in 0..64 (R84, R91, R120). -/
def refRegs (block : Block) (t : Nat) : CoreRegs where
  h := if t = 64 then compress block else H0
  wr := refWorking block t
  round := BitVec.ofNat 7 t
  done := t == 64
  w := refWindow block t

end Sys2Proof.Machine
end

