-- ==== Sys2Proof/Machine/Ports.lean ====
section
/-! DEFINITION. The core's output and the model's observation of the digest, and the byte and word order of the block input and of
the digest (R29 to R33, R49, R50). Log entry 10: PRESUMED. -/

namespace Sys2Proof.Machine

/-- The output port `done`: the register itself (R49). -/
def State.doneOut (s : State) : Bool := s.cur.done

/-- The model's observation of the digest words `h[0..7]`; no port carries them (R50). -/
def State.digest (s : State) : Vector Word 8 := s.cur.h

/-- Digest byte `4i + j` is `h[i][31 - 8j : 24 - 8j]` (R31). -/
def digestBytes (h : Vector Word 8) : Vector Byte 32 :=
  Vector.ofFn fun k => h[k.val / 4].extractLsb' (24 - 8 * (k.val % 4)) 8

/-- `B[4i]·2^24 + B[4i+1]·2^16 + B[4i+2]·2^8 + B[4i+3]`: the word of four message bytes (R30). -/
def wordOfBytes (b0 b1 b2 b3 : Byte) : Word := b0 ++ b1 ++ b2 ++ b3

/-- The block of a padded 64-byte string, big-endian (R30). -/
def blockOfBytes (bytes : Vector Byte 64) : Block :=
  Vector.ofFn fun i => wordOfBytes bytes[4 * i.val] bytes[4 * i.val + 1] bytes[4 * i.val + 2] bytes[4 * i.val + 3]

/-- The block as one packed 512-bit vector, word 0 in the top 32 bits (R32). -/
def packBlock (block : Block) : BitVec 512 :=
  block[0] ++ block[1] ++ block[2] ++ block[3] ++ block[4] ++ block[5] ++ block[6] ++ block[7] ++
    block[8] ++ block[9] ++ block[10] ++ block[11] ++ block[12] ++ block[13] ++ block[14] ++ block[15]

/-- Word i of a packed block is `block_bits[511 - 32i : 480 - 32i]` (R32). -/
def unpackBlock (bits : BitVec 512) : Block :=
  Vector.ofFn fun i => bits.extractLsb' (480 - 32 * i.val) 32

end Sys2Proof.Machine
end

