-- ==== Sys2Proof/Machine/Stimulus.lean ====
section
/-! DEFINITION. The stimulus notation of R58 and its pseudo-lines (R59): the written form of a list of input events.
Log entry 9: DESIGN CHOICE. -/

namespace Sys2Proof.Machine

/-- A stimulus line, one input event (R58). -/
inductive StimLine where
  /-- `RST`: `(1, -, -)`. -/
  | rst
  /-- `START b0 … b15`: `(0, 1, [b0, …, b15])`. -/
  | start (block : Block)
  /-- `IDLE`: `(0, 0, -)`. -/
  | idle
  deriving DecidableEq, Repr

/-- The input event of a line; its don't-cares (`-`) take the values of `fill` (R58). -/
def StimLine.event (line : StimLine) (fill : InputEvent) : InputEvent :=
  match line with
  | .rst => ⟨true, fill.start, fill.block⟩
  | .start block => ⟨false, true, block⟩
  | .idle => ⟨false, false, fill.block⟩

/-- The input events of a written stimulus, line k filled by `fill k`: each line has don't-cares of its own (R58). -/
def stimulusEvents (lines : List StimLine) (fill : Nat → InputEvent) : List InputEvent :=
  lines.mapIdx fun k line => line.event (fill k)

/-- A pseudo-line, which stands for the lines of its expansion (R59). -/
inductive PseudoLine where
  /-- `IDLE xN`. -/
  | idleTimes (n : Nat)
  /-- `START ZERO`. -/
  | startZero
  /-- `START ONES`. -/
  | startOnes
  /-- `START_MSG "<text>"`, by the text's bytes. -/
  | startMsg (text : List Byte)
  /-- `HASH1 <block>`. -/
  | hash1 (block : Block)
  deriving DecidableEq, Repr

/-- The bit length of a text as eight bytes, most significant first (R59). -/
def lengthBytes (text : List Byte) : List Byte :=
  (List.range 8).map fun j => BitVec.ofNat 8 (8 * text.length / 2 ^ (8 * (7 - j)))

/-- The one-block padding of a text of at most 55 bytes: the bytes, 0x80, zero bytes up to byte 55, the bit length (R59). -/
def paddedBytes (text : List Byte) : List Byte :=
  text ++ [0x80] ++ List.replicate (55 - text.length) 0 ++ lengthBytes text

/-- The block of `START_MSG`; the notation has none for a text of more than 55 bytes (R59). -/
def messageBlock (text : List Byte) : Option Block :=
  if text.length ≤ 55 then
    some (blockOfBytes (Vector.ofFn fun k => (paddedBytes text).getD k.val 0))
  else none

/-- The lines a pseudo-line stands for (R59). -/
def PseudoLine.expand : PseudoLine → Option (List StimLine)
  | .idleTimes n => some (List.replicate n .idle)
  | .startZero => some [.start Block.zero]
  | .startOnes => some [.start Block.ones]
  | .startMsg text => (messageBlock text).map fun block => [.start block]
  | .hash1 block => some (.start block :: List.replicate 64 .idle)

end Sys2Proof.Machine
end

