-- ==== Sys2Proof/Safety.lean ====
section
/-! DEFINITION. The terms the claims use: Valid states (R23), the launch premise (R124), the host's waiting (R112), runs of edges
(R39, R123). -/

namespace Sys2Proof.Machine

/-- `Valid(s)`: `round ≤ 64`, and `done` = 1 if and only if `round` = 64 (R23). -/
abbrev CoreRegs.Valid (c : CoreRegs) : Prop :=
  c.round.toNat ≤ 64 ∧ (c.done = true ↔ c.round.toNat = 64)

/-- `Launched(s, B)`: the state after a LOAD edge of B, or after a RESET edge with B = `ResetWindow` (R124). -/
abbrev State.Launched (s : State) (block : Block) : Prop :=
  s.cur.h = H0 ∧ s.cur.wr.toVector = H0 ∧ s.cur.round = 0 ∧ s.cur.done = false ∧ s.cur.w = block

/-- The registers are those of a run on the block after `round` rounds, with `round` at most 64 (R84, R91). -/
abbrev State.OnRunOf (s : State) (block : Block) : Prop :=
  s.cur.round.toNat ≤ 64 ∧ s.cur = refRegs block s.cur.round.toNat

/-- An event with `rst` = 0 and `start` = 0 (R58). -/
abbrev IdleEvent (e : InputEvent) : Prop := e.rst = false ∧ e.start = false

/-- `rst` = 0 and `start` = 0 at the next n edges (R112, R124). -/
abbrev State.IdleFor (s : State) (n : Nat) : Prop := ∀ k, k < n → IdleEvent (s.eventAt k)

/-- n edges, stopping at the first that has no step: `Host.Core.run` of `Sys2Proof.core`, in this model's own types. -/
def runEdges : Nat → State → Host.Outcome State Fault Refusal
  | 0, s => .next s
  | n + 1, s =>
    match step s with
    | .next s' => runEdges n s'
    | .fault r => .fault r
    | .refused r => .refused r

/-- A safe edge: it has a next state, and that state is Valid (R23, R71). -/
def State.SafeEdge (s : State) : Prop := ∃ t, step s = .next t ∧ t.cur.Valid

end Sys2Proof.Machine
end

