-- ==== Sys2Proof/Certificates/Slice0/Obligations.lean ====
section
/-! DEFINITION. The statements for the provers. Where an operation's effect is stated, the whole register record after it is written
out: an element that the operation does not write is copied from the record before it, so the statement is the operation's frame as
well. The core has no memory, so a frame says nothing of one (R26). The model's own fields are framed once for all operations, in
`EveryOperationTakesOneEdge`. -/

open Sys2Proof Sys2Proof.Machine

/-! ## The step -/

/-- R71, R53 (the selector word is the spec's decision D10): an edge does the operation that the selector word decodes to, and nothing else is added around it. -/
def Obligations.StepRunsDecodedOperation : Prop :=
  (∀ (s : State) (i : Instr), decode s.selector = .ok i → step s = exec i s) ∧
  (∀ (s : State) (i : Instr), i.wellFormed = true → s.selector = encode i → step s = exec i s)

/-- R52 (the spec's decision D10): the fields of the selector word of the next edge. -/
def Obligations.SelectorShowsInputsAndControlState : Prop :=
  ∀ s : State,
    s.selector.getLsbD 9 = s.inEvent.rst ∧ s.selector.getLsbD 8 = s.inEvent.start ∧
    s.selector.getLsbD 7 = s.cur.done ∧ s.selector.extractLsb' 0 7 = s.cur.round

/-- 95_test_vectors.md §3.1, R53 (the spec's decisions D10 for the packing and D2 for reset over start, log entry 7): selector words of
the decode vectors written out bit by bit, one or more of each operation and two reserved. -/
def Obligations.SelectorWordsDecode : Prop :=
  decode 0b1111000000#10 = .ok (.reset true true 64) ∧
  decode 0b0111000000#10 = .ok (.load true 64) ∧
  decode 0b0011000000#10 = .ok (.hold 64) ∧
  decode 0b0000001111#10 = .ok (.roundLo 15) ∧
  decode 0b0000010000#10 = .ok (.roundExp 16) ∧
  decode 0b0000111110#10 = .ok (.roundExp 62) ∧
  decode 0b0000111111#10 = .ok .roundLast ∧
  decode 0b0001000000#10 = .error .computingPast63 ∧
  decode 0b0010111111#10 = .error .doneNotAt64

/-- R52, R53 (decision D10): decoding and encoding are inverse to each other on the well-formed operations and on the selector
words that are not reserved. -/
def Obligations.DecodeAndEncodeAgree : Prop :=
  (∀ i : Instr, i.wellFormed = true → decode (encode i) = .ok i) ∧
  (∀ (sel : Sel) (i : Instr), decode sel = .ok i → i.wellFormed = true ∧ encode i = sel)

/-- R54 (decision D10): in a Valid state, whatever the event, exactly one row of the decode table applies; it is the row of the operation done. -/
def Obligations.ExactlyOneRowAppliesInValidStates : Prop :=
  ∀ s : State, s.cur.Valid →
    ∃ i : Instr, decode s.selector = .ok i ∧
      (decodeTable.filter fun r => r.applies s.selector).map Row.mnemonic = [i.mnemonic] ∧ s.SafeEdge

/-- R55 (decisions D10 for the word, D2 and D3 for the reset edge, log entries 4 and 7): the reserved selector values, what a step does
on them, and that no edge produces them. -/
def Obligations.ReservedSelectorsHaveNoStep : Prop :=
  (∀ sel : Sel, (∃ r, decode sel = .error r) ↔
    (sel.rst = false ∧ sel.start = false ∧
      ((sel.done = false ∧ 64 ≤ sel.round.toNat) ∨ (sel.done = true ∧ sel.round.toNat ≠ 64)))) ∧
  (∀ s : State, ¬ s.cur.Valid → IdleEvent s.inEvent → ∃ r, step s = .refused (.reservedSelector r)) ∧
  (∀ s : State, ¬ IdleEvent s.inEvent → s.SafeEdge) ∧
  (∀ s t : State, step s = .next t → t.cur.Valid)

/-- The model's own convention (log entries 6 and 11): a table word placed at the inputs and in `done` and `round` is the selector
word of the next edge, and the edge does what it decodes to. -/
def Obligations.PlacedTableWordIsTheNextOperation : Prop :=
  ∀ (s : State) (nbits w : Nat), 10 ≤ nbits → w < 2 ^ 10 →
    (s.withFetchWord nbits w).selector = BitVec.ofNat 10 w ∧
    (∀ i, decodeTableWord nbits w = some i → step (s.withFetchWord nbits w) = exec i (s.withFetchWord nbits w)) ∧
    (decodeTableWord nbits w = none → ∃ r, step (s.withFetchWord nbits w) = .refused (.reservedSelector r))

/-! ## The operations -/

/-- R73: LOAD. -/
def Obligations.LoadWritesLoadingValuesAndBlock : Prop :=
  ∀ s : State,
    let nxt : CoreRegs :=
      { h := H0, wr := ⟨H0[0], H0[1], H0[2], H0[3], H0[4], H0[5], H0[6], H0[7]⟩, round := 0, done := false,
        w := s.inEvent.block }
    (∀ done round, ∃ t, exec (.load done round) s = .next t ∧ t.cur = nxt) ∧
    (s.inEvent.rst = false → s.inEvent.start = true → ∃ t, step s = .next t ∧ t.cur = nxt)

/-- R72, R24, R101 (the spec's decisions D2 and D3, and log entry 1 for the window): RESET, whatever `start` and the block are. -/
def Obligations.ResetWritesLoadingValuesAndResetWindow : Prop :=
  ∀ s : State,
    let nxt : CoreRegs :=
      { h := H0, wr := ⟨H0[0], H0[1], H0[2], H0[3], H0[4], H0[5], H0[6], H0[7]⟩, round := 0, done := false,
        w := s.resetWindow }
    (∀ start done round, ∃ t, exec (.reset start done round) s = .next t ∧ t.cur = nxt) ∧
    (s.inEvent.rst = true → ∃ t, step s = .next t ∧ t.cur = nxt)

/-- R78: HOLD. A state with `done` = 1 that is not Valid is reserved (R55). -/
def Obligations.HoldWritesNothing : Prop :=
  ∀ s : State,
    (∀ round, ∃ t, exec (.hold round) s = .next t ∧ t.cur = s.cur) ∧
    (s.inEvent.rst = false → s.inEvent.start = false → s.cur.done = true → s.cur.Valid →
      ∃ t, step s = .next t ∧ t.cur = s.cur)

/-- R74: the round update. -/
def Obligations.RoundUpdateRotatesWorkingRegisters : Prop :=
  ∀ (cur : CoreRegs) (wt : Word), cur.round.toNat < 64 →
    let x := cur.wr
    let t1 := x.hReg + sigma1 x.e + ch x.e x.f x.g + kConst cur.round.toNat + wt
    let t2 := sigma0 x.a + maj x.a x.b x.c
    roundUpdate cur wt =
      { cur with
        wr := { hReg := x.g, g := x.f, f := x.e, e := x.d + t1, d := x.c, c := x.b, b := x.a, a := t1 + t2 },
        round := BitVec.ofNat 7 (cur.round.toNat + 1) }

/-- R75: ROUND_LO, rounds 0 to 15. That the window stays is the spec's own reading (R90). Log entry 13. -/
def Obligations.RoundLoUsesWindowEntryOfTheRound : Prop :=
  ∀ (s : State) (_ : s.cur.round.toNat < 16),
    let t := s.cur.round.toNat
    let x := s.cur.wr
    let t1 := x.hReg + sigma1 x.e + ch x.e x.f x.g + kConst t + s.cur.w[s.cur.round.toNat]
    let t2 := sigma0 x.a + maj x.a x.b x.c
    let nxt : CoreRegs :=
      { h := s.cur.h,
        wr := { hReg := x.g, g := x.f, f := x.e, e := x.d + t1, d := x.c, c := x.b, b := x.a, a := t1 + t2 },
        round := BitVec.ofNat 7 (t + 1), done := s.cur.done, w := s.cur.w }
    (∀ round, ∃ u, exec (.roundLo round) s = .next u ∧ u.cur = nxt) ∧
    (s.inEvent.rst = false → s.inEvent.start = false → s.cur.done = false → ∃ u, step s = .next u ∧ u.cur = nxt)

/-- R76: ROUND_EXP, rounds 16 to 62. -/
def Obligations.RoundExpExpandsAndShifts : Prop :=
  ∀ s : State, 16 ≤ s.cur.round.toNat → s.cur.round.toNat ≤ 62 →
    let t := s.cur.round.toNat
    let x := s.cur.wr
    let w := s.cur.w
    let wt := gamma1 w[14] + w[9] + gamma0 w[1] + w[0]
    let t1 := x.hReg + sigma1 x.e + ch x.e x.f x.g + kConst t + wt
    let t2 := sigma0 x.a + maj x.a x.b x.c
    let nxt : CoreRegs :=
      { h := s.cur.h,
        wr := { hReg := x.g, g := x.f, f := x.e, e := x.d + t1, d := x.c, c := x.b, b := x.a, a := t1 + t2 },
        round := BitVec.ofNat 7 (t + 1), done := s.cur.done,
        w := #v[w[1], w[2], w[3], w[4], w[5], w[6], w[7], w[8], w[9], w[10], w[11], w[12], w[13], w[14], w[15], wt] }
    (∀ round, ∃ u, exec (.roundExp round) s = .next u ∧ u.cur = nxt) ∧
    (s.inEvent.rst = false → s.inEvent.start = false → s.cur.done = false → ∃ u, step s = .next u ∧ u.cur = nxt)

/-- R77: ROUND_LAST, round 63, with the accumulation written out. -/
def Obligations.RoundLastAccumulatesAndSetsDone : Prop :=
  ∀ s : State, s.cur.round.toNat = 63 →
    let x := s.cur.wr
    let w := s.cur.w
    let h := s.cur.h
    let wt := gamma1 w[14] + w[9] + gamma0 w[1] + w[0]
    let t1 := x.hReg + sigma1 x.e + ch x.e x.f x.g + kConst 63 + wt
    let t2 := sigma0 x.a + maj x.a x.b x.c
    let nxt : CoreRegs :=
      { h := #v[h[0] + (t1 + t2), h[1] + x.a, h[2] + x.b, h[3] + x.c, h[4] + (x.d + t1), h[5] + x.e, h[6] + x.f, h[7] + x.g],
        wr := { hReg := x.g, g := x.f, f := x.e, e := x.d + t1, d := x.c, c := x.b, b := x.a, a := t1 + t2 },
        round := 64, done := true,
        w := #v[w[1], w[2], w[3], w[4], w[5], w[6], w[7], w[8], w[9], w[10], w[11], w[12], w[13], w[14], w[15], wt] }
    (∃ u, exec .roundLast s = .next u ∧ u.cur = nxt) ∧
    (s.inEvent.rst = false → s.inEvent.start = false → s.cur.done = false → ∃ u, step s = .next u ∧ u.cur = nxt)

/-- R121, R56, R97: every operation completes, in one edge. That its meaning answers outside the operation's own selection too, where
the core does no such operation, is the model's choice (log entry 5). The fields it steps are the model's own (log entries 1 and 2):
one event of the stimulus is used up, one edge is counted, and no operation writes the parameter `ResetWindow`. -/
def Obligations.EveryOperationTakesOneEdge : Prop :=
  ∀ (i : Instr) (s : State), ∃ t : State, exec i s = .next t ∧
    t.stimulus = s.stimulus.tail ∧ t.edge = s.edge + 1 ∧ t.resetWindow = s.resetWindow

/-! ## The round function -/

/-- R61: addition modulo 2^32, and any order of a sum gives the same word. -/
def Obligations.SumsWrapAndMayBeReordered : Prop :=
  (∀ x y : Word, (add32 x y).toNat = (x.toNat + y.toNat) % 2 ^ 32) ∧
  (∀ xs ys : List Word, xs.Perm ys → sum32 xs = sum32 ys) ∧
  (∀ xs : List Word, (sum32 xs).toNat = (xs.map BitVec.toNat).sum % 2 ^ 32)

/-- R63: rotate right, by the pseudocode and bit by bit. -/
def Obligations.RotateRightMovesBits : Prop :=
  ∀ (x : Word) (n : Nat),
    (rotr x n).toNat = (x.toNat / 2 ^ (n % 32)) ||| (x.toNat * 2 ^ (32 - n % 32) % 2 ^ 32) ∧
    (∀ i, i < 32 → (rotr x n).getLsbD i = x.getLsbD ((i + n) % 32))

/-- R64 (derived there): the shift right is logical. -/
def Obligations.ShiftRightIsLogical : Prop :=
  ∀ (x : Word) (n : Nat), n < 32 →
    (shr x n).toNat = x.toNat / 2 ^ n ∧ (∀ i, 32 - n ≤ i → (shr x n).getLsbD i = false)

/-- R65, R66: each bit of ch is chosen, each bit of maj is the value of at least two of the three. -/
def Obligations.ChChoosesAndMajIsMajority : Prop :=
  ∀ (x y z : Word) (i : Nat), i < 32 →
    (ch x y z).getLsbD i = (if x.getLsbD i then y.getLsbD i else z.getLsbD i) ∧
    (maj x y z).getLsbD i =
      decide (2 ≤ (x.getLsbD i).toNat + (y.getLsbD i).toNat + (z.getLsbD i).toNat)

/-- R67, R68: the bits of sigma0 and sigma1. -/
def Obligations.CompressionSigmasBitwise : Prop :=
  ∀ (x : Word) (i : Nat), i < 32 →
    (sigma0 x).getLsbD i =
      ((x.getLsbD ((i + 2) % 32) ^^ x.getLsbD ((i + 13) % 32)) ^^ x.getLsbD ((i + 22) % 32)) ∧
    (sigma1 x).getLsbD i =
      ((x.getLsbD ((i + 6) % 32) ^^ x.getLsbD ((i + 11) % 32)) ^^ x.getLsbD ((i + 25) % 32))

/-- R69, R70: the bits of gamma0 and gamma1; the shifted term brings in zero bits at the top. -/
def Obligations.ScheduleGammasBitwise : Prop :=
  ∀ (x : Word) (i : Nat), i < 32 →
    (gamma0 x).getLsbD i =
      ((x.getLsbD ((i + 7) % 32) ^^ x.getLsbD ((i + 18) % 32)) ^^ (decide (i < 29) && x.getLsbD (i + 3))) ∧
    (gamma1 x).getLsbD i =
      ((x.getLsbD ((i + 17) % 32) ^^ x.getLsbD ((i + 19) % 32)) ^^ (decide (i < 22) && x.getLsbD (i + 10)))

/-! ## Constants, schedule word and window -/

/-- R95: the constant of a round, and 0 out of range. -/
def Obligations.RoundConstantLookup : Prop :=
  kTable.length = 64 ∧ (∀ (t : Nat) (h : t < kTable.length), kConst t = kTable[t]) ∧ (∀ t, 64 ≤ t → kConst t = 0) ∧
  kConst 0 = 0x428a2f98 ∧ kConst 63 = 0xc67178f2

/-- R93, R94 (values the spec supplies from general knowledge, its decision D14): `K[t]` is the first 32 fractional bits of the
cube root of the (t+1)-th prime, `H0[i]` of the square root of the (i+1)-th. -/
def Obligations.ConstantsAreRootsOfPrimes : Prop :=
  let primes : List Nat :=
    [2, 3, 5, 7, 11, 13, 17, 19, 23, 29, 31, 37, 41, 43, 47, 53] ++
    [59, 61, 67, 71, 73, 79, 83, 89, 97, 101, 103, 107, 109, 113, 127, 131] ++
    [137, 139, 149, 151, 157, 163, 167, 173, 179, 181, 191, 193, 197, 199, 211, 223] ++
    [227, 229, 233, 239, 241, 251, 257, 263, 269, 271, 277, 281, 283, 293, 307, 311]
  (∀ t, t < 64 → ∃ q, q < 7 ∧
    (q * 2 ^ 32 + (kConst t).toNat) ^ 3 ≤ primes.getD t 0 * 2 ^ 96 ∧
    primes.getD t 0 * 2 ^ 96 < (q * 2 ^ 32 + (kConst t).toNat + 1) ^ 3) ∧
  (∀ (i : Nat) (_ : i < 8), ∃ q, q < 7 ∧
    (q * 2 ^ 32 + H0[i].toNat) ^ 2 ≤ primes.getD i 0 * 2 ^ 64 ∧
    primes.getD i 0 * 2 ^ 64 < (q * 2 ^ 32 + H0[i].toNat + 1) ^ 2)

/-- R87: the schedule word of a round, that every round consumes it, and that no round runs past 63. -/
def Obligations.ScheduleWordOfEachRound : Prop :=
  (∀ (w : Window) (t : Nat) (_ : t < 16), sched w t = w[t]) ∧
  (∀ (w : Window) (t : Nat), 16 ≤ t → t < 64 → sched w t = expand w) ∧
  (∀ (w : Window) (t : Nat), 64 ≤ t → sched w t = 0) ∧
  (∀ s t : State, IdleEvent s.inEvent → s.cur.done = false → step s = .next t →
    s.cur.round.toNat < 64 ∧
    t.cur.wr = mixWorking s.cur.wr (kConst s.cur.round.toNat) (sched s.cur.w s.cur.round.toNat))

/-- R88: the expansion, that it reads four entries only, and that a round from 16 on uses the expansion of the window before the
shift. -/
def Obligations.ExpandReadsFourEntries : Prop :=
  (∀ w : Window, expand w = gamma1 w[14] + w[9] + gamma0 w[1] + w[0]) ∧
  (∀ (w : Window) (x : Word) (i : Nat) (_ : i < 16), i ≠ 0 → i ≠ 1 → i ≠ 9 → i ≠ 14 → expand (w.set i x) = expand w) ∧
  (∀ s t : State, IdleEvent s.inEvent → s.cur.done = false → 16 ≤ s.cur.round.toNat → step s = .next t →
    t.cur.w[15] = expand s.cur.w ∧
    t.cur.wr = mixWorking s.cur.wr (kConst s.cur.round.toNat) (expand s.cur.w))

/-- R89: the shift, that it happens at every round edge from round 16 on, and that it happens at no other edge: the window stays (R90,
log entry 13), or is loaded (R73; R72 with the spec's decision D3 and log entry 1). -/
def Obligations.WindowShiftsFromRoundSixteenOn : Prop :=
  (∀ (w : Window) (x : Word), (∀ (i : Nat) (_ : i < 15), (shift w x)[i] = w[i + 1]) ∧ (shift w x)[15] = x) ∧
  (∀ s t : State, step s = .next t →
    (IdleEvent s.inEvent → s.cur.done = false → 16 ≤ s.cur.round.toNat → t.cur.w = shift s.cur.w (expand s.cur.w)) ∧
    (IdleEvent s.inEvent → (s.cur.done = true ∨ s.cur.round.toNat < 16) → t.cur.w = s.cur.w) ∧
    (s.inEvent.rst = true → t.cur.w = s.resetWindow) ∧
    (s.inEvent.rst = false → s.inEvent.start = true → t.cur.w = s.inEvent.block))

/-! ## Whole-machine rules -/

/-- R24, R25 (the spec's decision D3, and log entry 1 for the window): the state after reset is the one a RESET edge leaves. -/
def Obligations.ResetStateIsWhatAResetEdgeLeaves : Prop :=
  State.reset.cur.h = H0 ∧ State.reset.cur.wr.toVector = H0 ∧ State.reset.cur.round = 0 ∧ State.reset.cur.done = false ∧
  State.reset.cur.w = State.reset.resetWindow ∧
  (∀ s : State, s.inEvent.rst = true → s.resetWindow = State.reset.resetWindow →
    ∃ t, step s = .next t ∧ t.cur = State.reset.cur)

/-- R23, R124 (decision D3, log entries 1, 7 and 12): the state after reset is Valid, launched on the reset window and at the start of a run on it. -/
def Obligations.ResetStateStartsARun : Prop :=
  State.reset.cur.Valid ∧ State.reset.Launched State.reset.resetWindow ∧ State.reset.OnRunOf State.reset.resetWindow

/-- R18 (decisions D2 and D3 for the reset edge, log entry 7): what each edge leaves in `done`. -/
def Obligations.DoneIsLatchedByTheLastRound : Prop :=
  ∀ s t : State, step s = .next t →
    (t.cur.done = true ↔ IdleEvent s.inEvent ∧ (s.cur.done = true ∨ s.cur.round.toNat = 63))

/-- R82 (decisions D2 and D3 for the reset edge, log entry 7): the round counter at every edge from a Valid state. -/
def Obligations.RoundCountsUpToSixtyFour : Prop :=
  ∀ s t : State, s.cur.Valid → step s = .next t →
    (IdleEvent s.inEvent → t.cur.round.toNat = min (s.cur.round.toNat + 1) 64) ∧
    (¬ IdleEvent s.inEvent → t.cur.round = 0)

/-- R83 (decisions D2 and D3 for the reset edge, log entry 7): the two kinds of edge that write `h`. -/
def Obligations.HashChangesOnlyAtStartResetAndLastRound : Prop :=
  ∀ s t : State, step s = .next t →
    t.cur.h = s.cur.h ∨
    (¬ IdleEvent s.inEvent ∧ t.cur.h = H0) ∨
    (IdleEvent s.inEvent ∧ s.cur.done = false ∧ s.cur.round.toNat = 63 ∧ t.cur.round.toNat = 64 ∧ t.cur.done = true)

/-- R84, R91, R81: a run's registers are those of the compression of its block after `round` rounds, and every edge keeps this: a
reset or a start begins the run of another block. The window in rounds 1 to 15 rests on the spec's own reading R90 (log entry 13); the
reset branch on its decisions D2 and D3 (log entry 7), and the reset window is the model's free value (log entry 1). -/
def Obligations.EveryEdgeStaysOnARun : Prop :=
  ∀ (s t : State) (block : Block), s.OnRunOf block → step s = .next t →
    t.OnRunOf (if s.inEvent.rst then s.resetWindow else if s.inEvent.start then s.inEvent.block else block)

/-- R91, R86: the window through a run, against any sequence `W` that meets the recurrence of the message schedule. The clause for n up
to 16 rests on the spec's own reading R90 (log entry 13). -/
def Obligations.WindowIsASliceOfTheSchedule : Prop :=
  ∀ (s : State) (block : Block) (W : Nat → Word),
    (∀ (t : Nat) (_ : t < 16), W t = block[t]) →
    (∀ t, 16 ≤ t → t < 64 → W t = gamma1 (W (t - 2)) + W (t - 7) + gamma0 (W (t - 15)) + W (t - 16)) →
    s.Launched block → ∀ n, n ≤ 64 → s.IdleFor n →
    ∃ u, runEdges n s = .next u ∧ u.cur.round.toNat = n ∧
      (n ≤ 16 → ∀ (i : Nat) (_ : i < 16), u.cur.w[i] = W i) ∧
      (16 ≤ n → ∀ (i : Nat) (_ : i < 16), u.cur.w[i] = W (n - 16 + i)) ∧
      (n < 64 → sched u.cur.w n = W n)

/-- R124, R84: from the launch premise, 64 edges without start or reset end in the compression of the block. -/
def Obligations.LaunchedBlockIsCompressed : Prop :=
  ∀ (s : State) (block : Block), s.Launched block → s.IdleFor 64 →
    ∃ u, runEdges 64 s = .next u ∧ u.cur.done = true ∧ u.cur.round = 64 ∧
      u.cur.h = compress block ∧ u.cur.wr = refWorking block 64 ∧
      (∀ (i : Nat) (_ : i < 16), u.cur.w[i] = refSched block (48 + i))

/-- R84, R112 (the output `done` by the spec's decision D5, log entry 7; the digest is observed, D6 and log entry 10): from any state
whatever, one start edge and 64 edges without start or reset hash the block of that edge. -/
def Obligations.StartPulseHashesTheBlock : Prop :=
  ∀ s : State, s.inEvent.rst = false → s.inEvent.start = true → (∀ k, 1 ≤ k → k ≤ 64 → IdleEvent (s.eventAt k)) →
    ∃ u, runEdges 65 s = .next u ∧ u.doneOut = true ∧ u.digest = compress s.inEvent.block

/-- R111 (decisions D2, D3, D5 and D6, log entries 1, 7 and 10): a RESET edge and 64 edges without start or reset end with `done` = 1 and the compression of `ResetWindow`. -/
def Obligations.RunAfterResetCompressesTheResetWindow : Prop :=
  ∀ s : State, s.inEvent.rst = true → (∀ k, 1 ≤ k → k ≤ 64 → IdleEvent (s.eventAt k)) →
    ∃ u, runEdges 65 s = .next u ∧ u.doneOut = true ∧ u.digest = compress s.resetWindow

/-- R120, R123 (the output shows the register `done` by the spec's decision D5, log entry 7): the output `done` is 0 after edges e0 to e63 of a run and 1 from e64 on, for as long as no start or reset comes;
round t runs at edge e(t+1). -/
def Obligations.LatencyIsSixtyFiveEdges : Prop :=
  ∀ (s : State) (n : Nat), s.inEvent.rst = false → s.inEvent.start = true →
    (∀ k, 1 ≤ k → k ≤ n → IdleEvent (s.eventAt k)) →
    ∃ u, runEdges (n + 1) s = .next u ∧ u.cur.round.toNat = min n 64 ∧ (u.doneOut = true ↔ 64 ≤ n)

/-- R78, R109: the Done phase holds every register for any number of edges. -/
def Obligations.DonePhaseHoldsIndefinitely : Prop :=
  ∀ (s : State) (n : Nat), s.cur.Valid → s.cur.done = true → s.IdleFor n →
    ∃ u, runEdges n s = .next u ∧ u.cur = s.cur

/-- R113: `start` held high keeps the core at round 0, launched on the block of the last edge. -/
def Obligations.StartHeldHighReloads : Prop :=
  ∀ (s : State) (n : Nat), (∀ k, k ≤ n → (s.eventAt k).rst = false ∧ (s.eventAt k).start = true) →
    ∃ u, runEdges (n + 1) s = .next u ∧ u.Launched (s.eventAt n).block

/-- R80, R85: after a LOAD edge nothing of the state before it has an effect, whatever events follow. -/
def Obligations.LoadLeavesNoResidue : Prop :=
  ∀ (s₁ s₂ : State) (n : Nat), s₁.resetWindow = s₂.resetWindow → (∀ k, k ≤ n → s₁.eventAt k = s₂.eventAt k) →
    s₁.inEvent.rst = false → s₁.inEvent.start = true →
    ∃ u₁ u₂, runEdges (n + 1) s₁ = .next u₁ ∧ runEdges (n + 1) s₂ = .next u₂ ∧ u₁.cur = u₂.cur

/-- R36, R58 (reset over start and without a block: the spec's decisions D2 and D3, log entry 7): the block at an edge that is not a LOAD
edge, and `start` at a RESET edge, are don't-cares of a whole run. -/
def Obligations.UnsampledInputsDoNotMatter : Prop :=
  ∀ (s₁ s₂ : State) (n : Nat), s₁.cur = s₂.cur → s₁.cur.Valid → s₁.resetWindow = s₂.resetWindow →
    (∀ k, k < n → (s₁.eventAt k).rst = (s₂.eventAt k).rst ∧
      ((s₁.eventAt k).rst = false → (s₁.eventAt k).start = (s₂.eventAt k).start ∧
        ((s₁.eventAt k).start = true → (s₁.eventAt k).block = (s₂.eventAt k).block))) →
    ∃ u₁ u₂, runEdges n s₁ = .next u₁ ∧ runEdges n s₂ = .next u₂ ∧ u₁.cur = u₂.cur

/-! ## Ports and notation -/

/-- R58 (the spec's decision D9, log entry 9): a written stimulus gives the same run whatever the don't-cares of each of its lines are. -/
def Obligations.StimulusLinesRunTheSameWhateverTheFill : Prop :=
  ∀ (s : State) (lines : List StimLine) (fill₁ fill₂ : Nat → InputEvent), s.cur.Valid →
    ∃ u₁ u₂,
      runEdges lines.length { s with stimulus := stimulusEvents lines fill₁ } = .next u₁ ∧
      runEdges lines.length { s with stimulus := stimulusEvents lines fill₂ } = .next u₂ ∧ u₁ = u₂

/-- R59 (padding the spec takes from general knowledge): the bytes of the block of `START_MSG`. -/
def Obligations.StartMessageIsPadded : Prop :=
  ∀ text : List Byte,
    (text.length ≤ 55 →
      ∃ bytes : Vector Byte 64, messageBlock text = some (blockOfBytes bytes) ∧
        (∀ (k : Nat) (_ : k < text.length) (_ : k < 64), bytes[k] = text[k]) ∧
        (∀ (_ : text.length < 64), bytes[text.length] = 0x80) ∧
        (∀ (k : Nat) (_ : k < 56), text.length < k → bytes[k] = 0) ∧
        (∀ (j : Nat) (_ : j < 8), bytes[56 + j].toNat = 8 * text.length / 2 ^ (56 - 8 * j) % 256)) ∧
    (55 < text.length → messageBlock text = none)

/-- R30: block words are big-endian. -/
def Obligations.BlockWordsAreBigEndian : Prop :=
  ∀ (bytes : Vector Byte 64) (i : Nat) (_ : i < 16),
    (blockOfBytes bytes)[i].toNat =
      bytes[4 * i].toNat * 2 ^ 24 + bytes[4 * i + 1].toNat * 2 ^ 16 + bytes[4 * i + 2].toNat * 2 ^ 8 + bytes[4 * i + 3].toNat

/-- R31 (byte order the spec takes from general knowledge): digest byte `4i + j`. -/
def Obligations.DigestBytesAreBigEndian : Prop :=
  ∀ (h : Vector Word 8) (i j : Nat) (_ : i < 8) (_ : j < 4),
    (digestBytes h)[4 * i + j].toNat = h[i].toNat / 2 ^ (24 - 8 * j) % 256

/-- R32 (the spec's decision D7): a packed block has word 0 in its top bits, and packing loses nothing. -/
def Obligations.PackedBlockHasWordZeroOnTop : Prop :=
  ∀ block : Block,
    (∀ (i : Nat) (_ : i < 16), (packBlock block).extractLsb' (480 - 32 * i) 32 = block[i]) ∧
    unpackBlock (packBlock block) = block
end

