-- ==== Sys2Proof/Laws/Decode.lean ====
section
/-! SUPPORT. The fields of a packed selector word, and the decode table of R53 read over these fields. -/

namespace Sys2Proof

@[simp] theorem packSelector_rst : ∀ (r s d : Bool) (t : Round), (packSelector r s d t).rst = r := by decide

@[simp] theorem packSelector_start : ∀ (r s d : Bool) (t : Round), (packSelector r s d t).start = s := by decide

@[simp] theorem packSelector_done : ∀ (r s d : Bool) (t : Round), (packSelector r s d t).done = d := by decide

@[simp] theorem packSelector_round : ∀ (r s d : Bool) (t : Round), (packSelector r s d t).round = t := by decide

/-- Every selector word is the packing of its fields. -/
theorem packSelector_fields : ∀ sel : Sel, packSelector sel.rst sel.start sel.done sel.round = sel := by decide

/-- Priority 1 of R53. -/
theorem decode_reset : ∀ (s d : Bool) (t : Round), decode (packSelector true s d t) = .ok (.reset s d t) := by decide

/-- Priority 2 of R53. -/
theorem decode_load : ∀ (d : Bool) (t : Round), decode (packSelector false true d t) = .ok (.load d t) := by decide

/-- Priority 3 of R53 with the guard of R54. -/
theorem decode_done : ∀ t : Round,
    decode (packSelector false false true t) = if t = 64#7 then .ok (.hold t) else .error .doneNotAt64 := by decide

/-- Priorities 4 to 6 of R53 with the guard, and the reserved rest (R55). -/
theorem decode_computing : ∀ t : Round,
    decode (packSelector false false false t) =
      if t.toNat < 16 then .ok (.roundLo (t.extractLsb' 0 4))
      else if t.toNat < 63 then .ok (.roundExp t)
      else if t.toNat = 63 then .ok .roundLast
      else .error .computingPast63 := by decide

end Sys2Proof
end

