-- ==== Sys2Proof/Laws/PerInstr.lean ====
section
/-! SUPPORT. The family `RowBits`: every operation's selector word has the bits its row of the decode table fixes (R53). -/

namespace Sys2Proof.Laws.RowBits

/-- The row of `decodeTable` with the operation's mnemonic: its match under its mask, and its guard for a well-formed operation. -/
def Statement (i : Instr) : Prop :=
  i.wellFormed = true → ∃ r ∈ decodeTable, r.mnemonic = i.mnemonic ∧ r.applies (encode i) = true

theorem reset (start done : Bool) (round : Round) : Statement (.reset start done round) := by
  intro _
  refine ⟨⟨"RESET", 0x200#10, 0x200#10, .none⟩, by simp [decodeTable], rfl, ?_⟩
  revert start done round
  decide

theorem load (done : Bool) (round : Round) : Statement (.load done round) := by
  intro _
  refine ⟨⟨"LOAD", 0x100#10, 0x300#10, .none⟩, by simp [decodeTable], rfl, ?_⟩
  revert done round
  decide

theorem hold (round : Round) : Statement (.hold round) := by
  intro h
  refine ⟨⟨"HOLD", 0x080#10, 0x380#10, .roundIs64⟩, by simp [decodeTable], rfl, ?_⟩
  revert round
  decide

theorem roundLo (round : BitVec 4) : Statement (.roundLo round) := by
  intro _
  refine ⟨⟨"ROUND_LO", 0x000#10, 0x3F0#10, .none⟩, by simp [decodeTable], rfl, ?_⟩
  revert round
  decide

theorem roundLast : Statement .roundLast := by
  intro _
  exact ⟨⟨"ROUND_LAST", 0x03F#10, 0x3FF#10, .none⟩, by simp [decodeTable], rfl, rfl⟩

theorem roundExp (round : Round) : Statement (.roundExp round) := by
  intro h
  refine ⟨⟨"ROUND_EXP", 0x000#10, 0x380#10, .round16to62⟩, by simp [decodeTable], rfl, ?_⟩
  revert round
  decide

end Sys2Proof.Laws.RowBits
end

