-- ==== Sys2Proof/Laws/RoundFunction.lean ====
section
/-! SUPPORT. The word functions pushed down to the operators of `BitVec`. -/

namespace Sys2Proof.Machine

theorem add32_eq (x y : Word) : add32 x y = x + y :=
  BitVec.eq_of_toNat_eq (by simp only [add32, BitVec.toNat_ofNat, BitVec.toNat_add])

theorem sum32_nil : sum32 [] = 0 := rfl

/-- The fold of `add32` from any start: the start plus the sum. -/
theorem foldl_add32 (xs : List Word) (x : Word) : xs.foldl add32 x = x + xs.sum := by
  induction xs generalizing x with
  | nil => simp
  | cons y ys ih => rw [List.foldl_cons, ih, add32_eq, List.sum_cons, BitVec.add_assoc]

/-- A sum of words is their sum as bit vectors. -/
theorem sum32_eq_sum (xs : List Word) : sum32 xs = xs.sum := by
  simp [sum32, foldl_add32]

theorem shr_getLsbD (x : Word) (n i : Nat) : (shr x n).getLsbD i = x.getLsbD (n + i) := by
  simp [shr]

theorem expand_eq (w : Window) : expand w = gamma1 w[14] + w[9] + gamma0 w[1] + w[0] := by
  simp [expand, sum32, add32_eq]

theorem temp1_eq (x : Working) (k wt : Word) :
    temp1 x k wt = x.hReg + sigma1 x.e + ch x.e x.f x.g + k + wt := by
  simp [temp1, sum32, add32_eq]

theorem temp2_eq (x : Working) : temp2 x = sigma0 x.a + maj x.a x.b x.c := by
  simp [temp2, sum32, add32_eq]

/-- The round update of the working registers, over the operators of `BitVec`. -/
theorem mixWorking_eq (x : Working) (k wt : Word) :
    mixWorking x k wt =
      { hReg := x.g, g := x.f, f := x.e, e := x.d + (x.hReg + sigma1 x.e + ch x.e x.f x.g + k + wt),
        d := x.c, c := x.b, b := x.a,
        a := x.hReg + sigma1 x.e + ch x.e x.f x.g + k + wt + (sigma0 x.a + maj x.a x.b x.c) } := by
  simp only [mixWorking, add32_eq, temp1_eq, temp2_eq]

/-- The final accumulation, over the operators of `BitVec`. -/
theorem accumulate_eq (h : Vector Word 8) (x : Working) :
    accumulate h x =
      #v[h[0] + x.a, h[1] + x.b, h[2] + x.c, h[3] + x.d, h[4] + x.e, h[5] + x.f, h[6] + x.g, h[7] + x.hReg] := by
  simp only [accumulate, add32_eq]

theorem sched_of_lt (w : Window) (t : Nat) (h : t < 16) : sched w t = w[t] := by
  simp [sched, h]

theorem sched_expanded (w : Window) (t : Nat) (h : 16 ≤ t) (h' : t < 64) : sched w t = expand w := by
  simp [sched, Nat.not_lt.mpr h, h']

theorem sched_past (w : Window) (t : Nat) (h : 64 ≤ t) : sched w t = 0 := by
  simp [sched, Nat.not_lt.mpr h, show ¬ t < 16 by omega]

/-- Entry i of a shifted window, below the appended one. -/
theorem shift_get (w : Window) (x : Word) (i : Nat) (h : i < 15) : (shift w x)[i] = w[i + 1] := by
  interval_cases i <;> rfl

theorem shift_last (w : Window) (x : Word) : (shift w x)[15] = x := rfl

@[simp] theorem Working.toVector_ofVector (v : Vector Word 8) : (Working.ofVector v).toVector = v := by
  ext i h
  interval_cases i <;> rfl

@[simp] theorem Working.ofVector_toVector (x : Working) : Working.ofVector x.toVector = x := rfl

/-- Equal working registers as a vector are equal working registers. -/
theorem Working.eq_ofVector {x : Working} {v : Vector Word 8} (h : x.toVector = v) : x = Working.ofVector v := by
  rw [← h, Working.ofVector_toVector]

end Sys2Proof.Machine
end

