-- ==== Sys2Proof/Laws/Reference.lean ====
section
/-! SUPPORT. The reference schedule meets the recurrence of R86, and the reference window slides over it. -/

namespace Sys2Proof.Machine

@[simp] theorem scheduleTo_length (block : Block) (n : Nat) : (scheduleTo block n).length = 16 + n := by
  induction n with
  | zero => simp [scheduleTo]
  | succ n ih => simp [scheduleTo, ih]; omega

/-- A longer schedule keeps the words of a shorter one. -/
theorem scheduleTo_getD_of_le (block : Block) {m n t : Nat} (h : m ≤ n) (ht : t < 16 + m) :
    (scheduleTo block n).getD t 0 = (scheduleTo block m).getD t 0 := by
  induction n with
  | zero => rw [Nat.le_zero.mp h]
  | succ n ih =>
    rcases Nat.lt_or_eq_of_le h with h' | rfl
    · have hl : t < (scheduleTo block n).length := by
        rw [scheduleTo_length]
        omega
      rw [← ih (by omega), scheduleTo, List.getD_append _ _ _ _ hl]
    · rfl

/-- `W[t] = B[t]` for t in 0..15 (R86). -/
theorem refSched_block (block : Block) (t : Nat) (h : t < 16) : refSched block t = block[t] := by
  rw [refSched, scheduleTo_getD_of_le block (Nat.zero_le 48) (by omega)]
  simp [scheduleTo, h]

/-- The recurrence of R86 for t in 16..63. -/
theorem refSched_expanded (block : Block) (t : Nat) (h : 16 ≤ t) (h' : t < 64) :
    refSched block t = gamma1 (refSched block (t - 2)) + refSched block (t - 7) + gamma0 (refSched block (t - 15)) +
      refSched block (t - 16) := by
  obtain ⟨n, rfl⟩ : ∃ n, t = 16 + n := ⟨t - 16, by omega⟩
  have key : ∀ u, u < 16 + n → refSched block u = (scheduleTo block n).getD u 0 :=
    fun u hu => scheduleTo_getD_of_le block (by omega) hu
  rw [key (16 + n - 2) (by omega), key (16 + n - 7) (by omega), key (16 + n - 15) (by omega),
    key (16 + n - 16) (by omega), refSched,
    scheduleTo_getD_of_le block (show n + 1 ≤ 48 by omega) (by omega), scheduleTo,
    List.getD_append_right _ _ _ _ (by simp)]
  simp [nextScheduleWord, sum32, add32_eq]

/-- An entry of the reference window. -/
theorem refWindow_get (block : Block) (t i : Nat) (h : i < 16) : (refWindow block t)[i] = refSched block (t - 16 + i) := by
  simp [refWindow]

/-- At the start of a run the window is the block. -/
theorem refWindow_of_le (block : Block) (t : Nat) (h : t ≤ 16) : refWindow block t = block := by
  ext i hi
  rw [refWindow_get _ _ _ hi, show t - 16 + i = i by omega, refSched_block _ _ hi]

end Sys2Proof.Machine
end

