-- ==== Sys2Proof/Laws/State.lean ====
section
/-! SUPPORT. One lemma per field per update of the state, and how the sampled events move at an edge. -/

namespace Sys2Proof.Machine

@[simp] theorem State.commit_cur (s : State) (n : CoreRegs) : (s.commit n).cur = n := rfl
@[simp] theorem State.commit_resetWindow (s : State) (n : CoreRegs) : (s.commit n).resetWindow = s.resetWindow := rfl
@[simp] theorem State.commit_stimulus (s : State) (n : CoreRegs) : (s.commit n).stimulus = s.stimulus.tail := rfl
@[simp] theorem State.commit_edge (s : State) (n : CoreRegs) : (s.commit n).edge = s.edge + 1 := rfl

@[simp] theorem State.placeSelector_done (s : State) (sel : Sel) : (s.placeSelector sel).cur.done = sel.done := rfl
@[simp] theorem State.placeSelector_round (s : State) (sel : Sel) : (s.placeSelector sel).cur.round = sel.round := rfl
@[simp] theorem State.placeSelector_h (s : State) (sel : Sel) : (s.placeSelector sel).cur.h = s.cur.h := rfl
@[simp] theorem State.placeSelector_wr (s : State) (sel : Sel) : (s.placeSelector sel).cur.wr = s.cur.wr := rfl
@[simp] theorem State.placeSelector_w (s : State) (sel : Sel) : (s.placeSelector sel).cur.w = s.cur.w := rfl
@[simp] theorem State.placeSelector_rst (s : State) (sel : Sel) : (s.placeSelector sel).inEvent.rst = sel.rst := rfl
@[simp] theorem State.placeSelector_start (s : State) (sel : Sel) : (s.placeSelector sel).inEvent.start = sel.start := rfl

@[simp] theorem loadingRegs_h (w : Window) : (loadingRegs w).h = H0 := rfl
@[simp] theorem loadingRegs_wr (w : Window) : (loadingRegs w).wr = Working.ofVector H0 := rfl
@[simp] theorem loadingRegs_round (w : Window) : (loadingRegs w).round = 0 := rfl
@[simp] theorem loadingRegs_done (w : Window) : (loadingRegs w).done = false := rfl
@[simp] theorem loadingRegs_w (w : Window) : (loadingRegs w).w = w := rfl

@[simp] theorem opLoading_eq (w : Window) : opLoading w = loadingRegs w := rfl

@[simp] theorem roundUpdate_h (c : CoreRegs) (wt : Word) : (roundUpdate c wt).h = c.h := rfl
@[simp] theorem roundUpdate_wr (c : CoreRegs) (wt : Word) :
    (roundUpdate c wt).wr = mixWorking c.wr (kConst c.round.toNat) wt := rfl
@[simp] theorem roundUpdate_round (c : CoreRegs) (wt : Word) : (roundUpdate c wt).round = c.round + 1 := rfl
@[simp] theorem roundUpdate_done (c : CoreRegs) (wt : Word) : (roundUpdate c wt).done = c.done := rfl
@[simp] theorem roundUpdate_w (c : CoreRegs) (wt : Word) : (roundUpdate c wt).w = c.w := rfl

@[simp] theorem expandedRound_h (c : CoreRegs) : (expandedRound c).h = c.h := rfl
@[simp] theorem expandedRound_wr (c : CoreRegs) :
    (expandedRound c).wr = mixWorking c.wr (kConst c.round.toNat) (expand c.w) := rfl
@[simp] theorem expandedRound_round (c : CoreRegs) : (expandedRound c).round = c.round + 1 := rfl
@[simp] theorem expandedRound_done (c : CoreRegs) : (expandedRound c).done = c.done := rfl
@[simp] theorem expandedRound_w (c : CoreRegs) : (expandedRound c).w = shift c.w (expand c.w) := rfl

/-- The written stimulus comes first, one event per edge. -/
theorem State.eventAt_of_lt (s : State) (k : Nat) (h : k < s.stimulus.length) : s.eventAt k = s.stimulus[k] := by
  simp [State.eventAt, h]

/-- After the written stimulus the events are free. -/
theorem State.eventAt_of_ge (s : State) (k : Nat) (h : s.stimulus.length ≤ k) :
    s.eventAt k = Config.freeInput (s.edge + k) := by
  simp [State.eventAt, h]

/-- At an edge every event comes one edge nearer. -/
@[simp] theorem State.eventAt_commit (s : State) (n : CoreRegs) (k : Nat) :
    (s.commit n).eventAt k = s.eventAt (k + 1) := by
  unfold State.eventAt
  simp [State.commit, Nat.add_assoc, Nat.add_comm 1 k]

@[simp] theorem State.inEvent_commit (s : State) (n : CoreRegs) : (s.commit n).inEvent = s.eventAt 1 :=
  s.eventAt_commit n 0

/-- Two states are equal when their four fields are. -/
theorem State.eq_of_fields {s t : State} (hc : s.cur = t.cur) (hr : s.resetWindow = t.resetWindow)
    (hs : s.stimulus = t.stimulus) (he : s.edge = t.edge) : s = t := by
  cases s
  cases t
  simp_all

end Sys2Proof.Machine
end

