-- ==== Sys2Proof/Laws/Step.lean ====
section
/-! SUPPORT. What a meaning and a step can do, said once; runs of edges. -/

namespace Sys2Proof.Machine

theorem execReset_eq (s : State) : execReset s = .next (s.commit (loadingRegs s.resetWindow)) := rfl

theorem execLoad_eq (s : State) : execLoad s = .next (s.commit (loadingRegs s.inEvent.block)) := rfl

theorem execHold_eq (s : State) : execHold s = .next (s.commit s.cur) := rfl

theorem execRoundLo_eq (s : State) :
    execRoundLo s = .next (s.commit (roundUpdate s.cur (sched s.cur.w s.cur.round.toNat))) := rfl

theorem execRoundExp_eq (s : State) : execRoundExp s = .next (s.commit (expandedRound s.cur)) := rfl

theorem execRoundLast_eq (s : State) :
    execRoundLast s = .next (s.commit
      { expandedRound s.cur with h := accumulate s.cur.h (expandedRound s.cur).wr, done := true }) := rfl

/-- Every operation commits one edge. -/
theorem exec_commits {i : Instr} {s t : State} (h : exec i s = .next t) : ∃ nxt, t = s.commit nxt := by
  cases i <;> · simp only [exec] at h; exact ⟨_, (Host.Outcome.next.inj h).symm⟩

/-- The registers after a round edge with the schedule word of the round: the shared shape of ROUND_LO, ROUND_EXP and
ROUND_LAST. -/
def computingRegs (c : CoreRegs) : CoreRegs :=
  if c.round.toNat < 16 then roundUpdate c (sched c.w c.round.toNat)
  else if c.round.toNat < 63 then expandedRound c
  else { expandedRound c with h := accumulate c.h (expandedRound c).wr, done := true }

theorem step_of_rst {s : State} (h : s.inEvent.rst = true) :
    step s = .next (s.commit (loadingRegs s.resetWindow)) := by
  simp only [step, State.selector, h, decode_reset, exec, execReset_eq]

theorem step_of_start {s : State} (hr : s.inEvent.rst = false) (h : s.inEvent.start = true) :
    step s = .next (s.commit (loadingRegs s.inEvent.block)) := by
  simp only [step, State.selector, hr, h, decode_load, exec, execLoad_eq]

theorem step_of_done {s : State} (hi : IdleEvent s.inEvent) (hd : s.cur.done = true) (h : s.cur.round.toNat = 64) :
    step s = .next (s.commit s.cur) := by
  have : s.cur.round = 64#7 := BitVec.eq_of_toNat_eq h
  simp only [step, State.selector, hi.1, hi.2, hd, decode_done, this, if_true, exec, execHold_eq]

theorem step_of_computing {s : State} (hi : IdleEvent s.inEvent) (hd : s.cur.done = false)
    (h : s.cur.round.toNat < 64) : step s = .next (s.commit (computingRegs s.cur)) := by
  simp only [step, State.selector, hi.1, hi.2, hd, decode_computing, computingRegs]
  by_cases h16 : s.cur.round.toNat < 16
  · simp only [h16, if_true, exec, execRoundLo_eq]
  · by_cases h63 : s.cur.round.toNat < 63
    · simp only [h16, h63, if_true, if_false, exec, execRoundExp_eq]
    · have h63 : s.cur.round.toNat = 63 := by omega
      simp only [h63, exec, execRoundLast_eq]
      norm_num

theorem step_of_reserved {s : State} (hi : IdleEvent s.inEvent) (hv : ¬ s.cur.Valid) :
    ∃ r, step s = .refused (.reservedSelector r) := by
  simp only [CoreRegs.Valid, not_and_or] at hv
  cases hd : s.cur.done with
  | true =>
    have : s.cur.round ≠ 64#7 := by
      intro h
      rcases hv with hv | hv <;> simp [hd, h] at hv
    exact ⟨.doneNotAt64, by simp only [step, State.selector, hi.1, hi.2, hd, decode_done, this, if_false]⟩
  | false =>
    have : ¬ s.cur.round.toNat < 64 := by
      intro h
      rcases hv with hv | hv
      · omega
      · simp [hd] at hv; omega
    refine ⟨.computingPast63, ?_⟩
    simp only [step, State.selector, hi.1, hi.2, hd, decode_computing,
      show ¬ s.cur.round.toNat < 16 by omega, show ¬ s.cur.round.toNat < 63 by omega,
      show ¬ s.cur.round.toNat = 63 by omega, if_false]

/-- What a step can do: a next state comes from RESET, from LOAD, from HOLD in a Valid Done state, or from a round below 64. -/
theorem step_cases {s t : State} (h : step s = .next t) :
    (s.inEvent.rst = true ∧ t = s.commit (loadingRegs s.resetWindow)) ∨
    (s.inEvent.rst = false ∧ s.inEvent.start = true ∧ t = s.commit (loadingRegs s.inEvent.block)) ∨
    (IdleEvent s.inEvent ∧ s.cur.done = true ∧ s.cur.round.toNat = 64 ∧ t = s.commit s.cur) ∨
    (IdleEvent s.inEvent ∧ s.cur.done = false ∧ s.cur.round.toNat < 64 ∧ t = s.commit (computingRegs s.cur)) := by
  cases hr : s.inEvent.rst with
  | true => exact .inl ⟨rfl, (Host.Outcome.next.inj ((step_of_rst hr).symm.trans h)).symm⟩
  | false =>
    cases hs : s.inEvent.start with
    | true => exact .inr (.inl ⟨rfl, rfl, (Host.Outcome.next.inj ((step_of_start hr hs).symm.trans h)).symm⟩)
    | false =>
      have hi : IdleEvent s.inEvent := ⟨hr, hs⟩
      by_cases hv : s.cur.Valid
      · cases hd : s.cur.done with
        | true =>
          have hn := hv.2.mp hd
          exact .inr (.inr (.inl ⟨hi, rfl, hn, (Host.Outcome.next.inj ((step_of_done hi hd hn).symm.trans h)).symm⟩))
        | false =>
          have hn : s.cur.round.toNat < 64 := by
            have := mt hv.2.mpr (by simp [hd])
            have := hv.1
            omega
          exact .inr (.inr (.inr ⟨hi, rfl, hn,
            (Host.Outcome.next.inj ((step_of_computing hi hd hn).symm.trans h)).symm⟩))
      · obtain ⟨r, hr'⟩ := step_of_reserved hi hv
        simp [hr'] at h

/-- Rounds add one to the counter without wrapping. -/
theorem round_succ_toNat (r : Round) (h : r.toNat < 64) : (r + 1).toNat = r.toNat + 1 := by
  have : BitVec.toNat (1 : Round) = 1 := rfl
  rw [BitVec.toNat_add, this]
  omega

@[simp] theorem computingRegs_round (c : CoreRegs) : (computingRegs c).round = c.round + 1 := by
  simp only [computingRegs]
  split
  · rfl
  · split <;> rfl

theorem runEdges_zero (s : State) : runEdges 0 s = .next s := rfl

/-- The first edge of a run. -/
theorem runEdges_succ {s t : State} (h : step s = .next t) (n : Nat) : runEdges (n + 1) s = runEdges n t := by
  simp [runEdges, h]

/-- Two runs after one another. -/
theorem runEdges_add {s t : State} {m : Nat} (h : runEdges m s = .next t) (n : Nat) :
    runEdges (m + n) s = runEdges n t := by
  induction m generalizing s with
  | zero => simp_all [runEdges]
  | succ m ih =>
    rw [Nat.succ_add]
    simp only [runEdges] at h ⊢
    cases hs : step s with
    | next u => rw [hs] at h; exact ih h
    | fault r => cases r
    | refused r => rw [hs] at h; cases h

/-- A run of the model is the host's run of `Sys2Proof.core`. -/
theorem runEdges_eq_core_run (n : Nat) (s : State) : Host.Core.run Sys2Proof.core n s = runEdges n s := by
  induction n generalizing s with
  | zero => rfl
  | succ n ih =>
    simp only [Host.Core.run, runEdges, Sys2Proof.core]
    cases step s with
    | next t => exact ih t
    | fault r => rfl
    | refused r => rfl

end Sys2Proof.Machine
end

