-- ==== Sys2Proof/Laws/Stimulus.lean ====
section
/-! SUPPORT. The events of a written stimulus, line by line. -/

namespace Sys2Proof.Machine

/-- One event a line (R58). -/
@[simp] theorem stimulusEvents_length (lines : List StimLine) (fill : Nat → InputEvent) :
    (stimulusEvents lines fill).length = lines.length := by
  simp [stimulusEvents]

/-- The event of line k is that line's, with that line's fill. -/
@[simp] theorem stimulusEvents_getElem (lines : List StimLine) (fill : Nat → InputEvent) (k : Nat)
    (h : k < (stimulusEvents lines fill).length) :
    (stimulusEvents lines fill)[k] = (lines[k]'(by simpa using h)).event (fill k) := by
  simp [stimulusEvents]

end Sys2Proof.Machine
end

