-- ==== Sys2Proof/Tests/Slice0.lean ====
section
/-! SUPPORT. The model's own tests, with the values of 95_test_vectors.md, and a witness for the hypotheses of each obligation. -/

namespace Sys2Proof.Tests

open Sys2Proof Sys2Proof.Machine

/-! ## States to test on -/

/-- The padded block of "abc" (95_test_vectors.md §1.1). -/
def abcBlock : Block := #v[0x61626380, 0, 0, 0, 0, 0, 0, 0, 0, 0, 0, 0, 0, 0, 0, 0x18]

/-- An idle event with a block at the port. -/
def idle : InputEvent := ⟨false, false, abcBlock⟩

/-- A start event with the block of "abc". -/
def startAbc : InputEvent := ⟨false, true, abcBlock⟩

/-- A state with given registers whose next events are given. -/
def stateOf (cur : CoreRegs) (events : List InputEvent) : State := ⟨cur, Block.ones, events, 0⟩

/-- The Loading registers with `done`, `round` and the window of "abc". -/
def regsAt (done : Bool) (round : Round) : CoreRegs := { loadingRegs abcBlock with done := done, round := round }

/-- One edge with the event `e` from the registers `regsAt done round`. -/
def at_ (done : Bool) (round : Round) (e : InputEvent) : State := stateOf (regsAt done round) [e]

/-- The registers after e16 of "abc": before round 16 (95_test_vectors.md §3.2). -/
def abcRegs16 : CoreRegs where
  h := H0
  wr := ⟨0xb0fa238e, 0xc0645fde, 0xd932eb16, 0x87912990, 0x07590dcd, 0x0b92f20c, 0x745a48de, 0x1e578218⟩
  round := 16
  done := false
  w := abcBlock

/-- The registers after e63 of "abc": before round 63 (95_test_vectors.md §3.2). -/
def abcRegs63 : CoreRegs where
  h := H0
  wr := ⟨0xd39a2165, 0x04d24d6c, 0xb85e2ce9, 0xb6ae8fff, 0xfb121210, 0x948d25b6, 0x961f4894, 0xb21bad3d⟩
  round := 63
  done := false
  w := #v[0x065c43da, 0xfb3e89cb, 0xcc7617db, 0xb9e66c34, 0xa9993667, 0x84badedd, 0xc21462bc, 0x1487472c,
    0xb20f7a99, 0xef57b9cd, 0xebe6b238, 0x9fe3095e, 0x78bc8d4b, 0xa43fcf15, 0x668b2ff8, 0xeeaba2cc]

/-! ## WellFormed and decode -/

/-- HOLD is refused away from `round` = 64 (R54). -/
theorem test_wf_hold : (Instr.hold 63).wellFormed = false ∧ (Instr.hold 65).wellFormed = false ∧
    (Instr.hold 64).wellFormed = true := by decide

/-- ROUND_EXP is refused outside 16..62 (R53). -/
theorem test_wf_roundExp : (Instr.roundExp 15).wellFormed = false ∧ (Instr.roundExp 63).wellFormed = false ∧
    (Instr.roundExp 16).wellFormed = true ∧ (Instr.roundExp 62).wellFormed = true := by decide

/-- 95_test_vectors.md §3.1, bits written out: `rst` wins over `start`, in any state. -/
theorem test_decode_reset : decode 0b1111000000#10 = .ok (.reset true true 64) ∧
    decode 0b1000111111#10 = .ok (.reset false false 63) := by decide

theorem test_decode_load : decode 0b0100011110#10 = .ok (.load false 30) ∧
    decode 0b0111000000#10 = .ok (.load true 64) := by decide

theorem test_decode_hold : decode 0b0011000000#10 = .ok (.hold 64) := by decide

theorem test_decode_roundLo : decode 0b0000000000#10 = .ok (.roundLo 0) ∧
    decode 0b0000001111#10 = .ok (.roundLo 15) := by decide

theorem test_decode_roundExp : decode 0b0000010000#10 = .ok (.roundExp 16) ∧
    decode 0b0000111110#10 = .ok (.roundExp 62) := by decide

theorem test_decode_roundLast : decode 0b0000111111#10 = .ok .roundLast := by decide

/-- The four reserved words of 95_test_vectors.md §3.1. -/
theorem test_decode_reserved : decode 0x040#10 = .error .computingPast63 ∧ decode 0x07f#10 = .error .computingPast63 ∧
    decode 0x080#10 = .error .doneNotAt64 ∧ decode 0x0bf#10 = .error .doneNotAt64 := by decide

theorem test_decodeTableWord : decodeTableWord 16 0x200 = some (.reset false false 0) ∧
    decodeTableWord 16 0x0c0 = some (.hold 64) ∧ decodeTableWord 16 0x080 = none ∧ decodeTableWord 16 0x400 = none := by
  decide

/-- A placed word runs as the first operation after reset. -/
theorem test_withFetchWord : ∃ t, step (State.reset.withFetchWord 16 0x010) = .next t ∧ t.cur.round = 17 ∧
    t.cur.done = false := ⟨_, rfl, by decide, by decide⟩

/-! ## The round function (95_test_vectors.md §2) -/

theorem test_add32 : add32 0xfffffffe 3 = 1 ∧ add32 0x428a2f98 0x61626380 = 0xa3ec9318 := by decide

theorem test_rotr : rotr 0x12345678 4 = 0x81234567 ∧ rotr 0x12345678 32 = 0x12345678 ∧ rotr 0x12345678 33 = 0x091a2b3c := by
  decide

theorem test_shr : shr 0x80000000 3 = 0x10000000 ∧ shr 0xffffffff 10 = 0x003fffff := by decide

theorem test_ch_maj : ch 0x510e527f 0x9b05688c 0x1f83d9ab = 0x1f85c98c ∧
    maj 0xf0f0f0f0 0xff00ff00 0xaaaaaaaa = 0xfaa0faa0 := by decide

/-- Both ends of rows of the table, and past its end. -/
theorem test_kConst : kConst 15 = 0xc19bf174 ∧ kConst 16 = 0xe49b69c1 ∧ kConst 62 = 0xbef9a3f7 ∧ kConst 63 = 0xc67178f2 ∧
    kConst 64 = 0 ∧ kConst 127 = 0 := by decide

theorem test_sigmas : sigma0 0x12345678 = 0x66146474 ∧ sigma1 0x12345678 = 0x3561abda := by decide

theorem test_gammas : gamma0 0x12345678 = 0xe7fce6ee ∧ gamma1 0x12345678 = 0xa1f78649 := by decide

/-! ## The operations (95_test_vectors.md §3.2; §3.1 for the preemptions) -/

/-- LOAD in round 63: no final accumulation. -/
theorem test_load : ∃ t, step (stateOf abcRegs63 [startAbc]) = .next t ∧
    t.cur = ⟨H0, ⟨0x6a09e667, 0xbb67ae85, 0x3c6ef372, 0xa54ff53a, 0x510e527f, 0x9b05688c, 0x1f83d9ab, 0x5be0cd19⟩, 0, false,
      abcBlock⟩ := ⟨_, rfl, by decide⟩

/-- RESET with `start`: reset wins, and the block is not loaded. -/
theorem test_reset : ∃ t, step (stateOf abcRegs63 [⟨true, true, abcBlock⟩]) = .next t ∧
    t.cur.h = H0 ∧ t.cur.round = 0 ∧ t.cur.w = Block.ones := ⟨_, rfl, by decide, by decide, by decide⟩

theorem test_hold : ∃ t, step (at_ true 64 idle) = .next t ∧ t.cur = regsAt true 64 := ⟨_, rfl, by decide⟩

/-- Round 0 of "abc". -/
theorem test_roundLo : ∃ t, step (at_ false 0 idle) = .next t ∧
    t.cur.wr = ⟨0x5d6aebcd, 0x6a09e667, 0xbb67ae85, 0x3c6ef372, 0xfa2a4622, 0x510e527f, 0x9b05688c, 0x1f83d9ab⟩ ∧
    t.cur.w = abcBlock := ⟨_, rfl, by decide, by decide⟩

/-- Round 16 of "abc". -/
theorem test_roundExp : ∃ t, step (stateOf abcRegs16 [idle]) = .next t ∧
    t.cur.wr = ⟨0x21da9a9b, 0xb0fa238e, 0xc0645fde, 0xd932eb16, 0x8034229c, 0x07590dcd, 0x0b92f20c, 0x745a48de⟩ ∧
    t.cur.w = #v[0, 0, 0, 0, 0, 0, 0, 0, 0, 0, 0, 0, 0, 0, 0x18, 0x61626380] := ⟨_, rfl, by decide, by decide⟩

/-- Round 63 of "abc": the digest. -/
theorem test_roundLast_digest : ∃ t, step (stateOf abcRegs63 [idle]) = .next t ∧
    t.cur.h = #v[0xba7816bf, 0x8f01cfea, 0x414140de, 0x5dae2223, 0xb00361a3, 0x96177a9c, 0xb410ff61, 0xf20015ad] :=
  ⟨_, rfl, by decide⟩

theorem test_roundLast_control : ∃ t, step (stateOf abcRegs63 [idle]) = .next t ∧ t.cur.round = 64 ∧ t.cur.done = true ∧
    t.cur.wr.a = 0x506e3058 ∧ t.cur.w[15] = 0x12b1edeb := ⟨_, rfl, by decide⟩

/-- An edge from a state that is not Valid has no step (R55). -/
theorem test_reserved_refused : step (at_ false 64 idle) = .refused (.reservedSelector .computingPast63) := rfl

/-- The padded block of "abc" (R59) and the bytes of a digest word (R31). -/
theorem test_messageBlock : messageBlock [0x61, 0x62, 0x63] = some abcBlock := by decide

theorem test_digestBytes : (digestBytes H0)[0] = 0x6a ∧ (digestBytes H0)[3] = 0x67 ∧ (digestBytes H0)[31] = 0x19 := by decide

/-! ## Witnesses: concrete values that meet the hypotheses of each obligation -/

/-- A run of n idle edges after a first event. -/
def runState (cur : CoreRegs) (first : InputEvent) (n : Nat) : State := stateOf cur (first :: List.replicate n idle)

/-- n idle edges. -/
def idleState (cur : CoreRegs) (n : Nat) : State := stateOf cur (List.replicate n idle)

theorem idleState_idleFor (cur : CoreRegs) (n : Nat) : (idleState cur n).IdleFor n := by
  intro k hk
  rw [State.eventAt_of_lt _ _ (by simpa [idleState, stateOf] using hk)]
  simp [idleState, stateOf, idle]

theorem runState_idle (cur : CoreRegs) (first : InputEvent) (n k : Nat) (h1 : 1 ≤ k) (hk : k ≤ n) :
    IdleEvent ((runState cur first n).eventAt k) := by
  obtain ⟨k, rfl⟩ : ∃ j, k = j + 1 := ⟨k - 1, by omega⟩
  rw [State.eventAt_of_lt _ _ (by simp [runState, stateOf]; omega)]
  simp [runState, stateOf, idle]

theorem witness_StepRunsDecodedOperation :
    decode (at_ false 0 startAbc).selector = .ok (.load false 0) ∧
    (Instr.hold 64).wellFormed = true ∧ (at_ true 64 idle).selector = encode (.hold 64) := by decide

theorem witness_DecodeAndEncodeAgree :
    (Instr.hold 64).wellFormed = true ∧ (Instr.roundExp 16).wellFormed = true ∧ (Instr.roundExp 62).wellFormed = true ∧
    decode 0x03f#10 = .ok .roundLast := by decide

theorem witness_ExactlyOneRowAppliesInValidStates :
    (at_ false 0 idle).cur.Valid ∧ (at_ false 63 idle).cur.Valid ∧ (at_ true 64 idle).cur.Valid := by decide

theorem witness_ReservedSelectorsHaveNoStep :
    (¬ (at_ false 64 idle).cur.Valid ∧ IdleEvent (at_ false 64 idle).inEvent) ∧
    (¬ (at_ true 63 idle).cur.Valid ∧ IdleEvent (at_ true 63 idle).inEvent) ∧
    ¬ IdleEvent (at_ true 63 startAbc).inEvent ∧ (∃ t, step (at_ true 64 idle) = .next t) :=
  ⟨by decide, by decide, by decide, _, rfl⟩

theorem witness_PlacedTableWordIsTheNextOperation :
    10 ≤ 16 ∧ 0x3ff < 2 ^ 10 ∧ decodeTableWord 16 0x3ff = some (.reset true true 127) ∧ 0x080 < 2 ^ 10 ∧
    decodeTableWord 10 0x080 = none := by decide

theorem witness_LoadWritesLoadingValuesAndBlock :
    (at_ true 64 startAbc).inEvent.rst = false ∧ (at_ true 64 startAbc).inEvent.start = true := by decide

theorem witness_ResetWritesLoadingValuesAndResetWindow : (at_ false 5 ⟨true, true, abcBlock⟩).inEvent.rst = true := by decide

theorem witness_HoldWritesNothing :
    IdleEvent (at_ true 64 idle).inEvent ∧ (at_ true 64 idle).cur.done = true ∧ (at_ true 64 idle).cur.Valid := by decide

theorem witness_RoundUpdateRotatesWorkingRegisters : (regsAt false 0).round.toNat < 64 ∧ (regsAt false 63).round.toNat < 64 := by
  decide

theorem witness_RoundLoUsesWindowEntryOfTheRound :
    (∀ s ∈ [at_ false 0 idle, at_ false 15 idle], s.cur.round.toNat < 16 ∧ IdleEvent s.inEvent ∧ s.cur.done = false) := by decide

theorem witness_RoundExpExpandsAndShifts :
    (∀ s ∈ [at_ false 16 idle, at_ false 62 idle],
      16 ≤ s.cur.round.toNat ∧ s.cur.round.toNat ≤ 62 ∧ IdleEvent s.inEvent ∧ s.cur.done = false) := by decide

theorem witness_RoundLastAccumulatesAndSetsDone :
    (at_ false 63 idle).cur.round.toNat = 63 ∧ IdleEvent (at_ false 63 idle).inEvent ∧ (at_ false 63 idle).cur.done = false := by
  decide

theorem witness_SumsWrapAndMayBeReordered : List.Perm [(1 : Word), 2, 3] [3, 1, 2] := by decide

/-- For RotateRightMovesBits, ChChoosesAndMajIsMajority, CompressionSigmasBitwise and ScheduleGammasBitwise. -/
theorem witness_bit_indices : (0 < 32 ∧ 31 < 32) ∧ ((28 : Nat) < 29 ∧ ¬ 29 < 29) ∧ ((21 : Nat) < 22 ∧ ¬ 22 < 22) := by decide

theorem witness_ShiftRightIsLogical : (31 < 32 ∧ 32 - 31 ≤ 1) ∧ (0 < 32 ∧ 32 - 0 ≤ 32) := by decide

theorem witness_RoundConstantLookup : 63 < kTable.length ∧ 64 ≤ 64 := by decide

theorem witness_ConstantsAreRootsOfPrimes : (63 < 64) ∧ (7 < 8) := by decide

theorem witness_ScheduleWordOfEachRound :
    (15 < 16 ∧ 16 ≤ 16 ∧ 63 < 64 ∧ 64 ≤ 64) ∧
    IdleEvent (at_ false 0 idle).inEvent ∧ (at_ false 0 idle).cur.done = false ∧ (∃ t, step (at_ false 0 idle) = .next t) :=
  ⟨by decide, by decide, by decide, _, rfl⟩

theorem witness_ExpandReadsFourEntries :
    (15 < 16 ∧ 15 ≠ 0 ∧ 15 ≠ 1 ∧ 15 ≠ 9 ∧ 15 ≠ 14) ∧
    IdleEvent (at_ false 16 idle).inEvent ∧ (at_ false 16 idle).cur.done = false ∧ 16 ≤ (at_ false 16 idle).cur.round.toNat ∧
    (∃ t, step (at_ false 16 idle) = .next t) :=
  ⟨by decide, by decide, by decide, by decide, _, rfl⟩

/-- One state for each of the four clauses on an edge: a round from 16 on, an earlier one, RESET, LOAD. -/
theorem witness_WindowShiftsFromRoundSixteenOn :
    (14 < 15) ∧ (∃ t, step (at_ false 63 idle) = .next t) ∧ (∃ t, step (at_ false 15 idle) = .next t) ∧
    (∃ t, step (at_ false 0 ⟨true, false, abcBlock⟩) = .next t) ∧ (∃ t, step (at_ false 0 startAbc) = .next t) :=
  ⟨by decide, ⟨_, rfl⟩, ⟨_, rfl⟩, ⟨_, rfl⟩, ⟨_, rfl⟩⟩

theorem witness_ResetStateIsWhatAResetEdgeLeaves :
    ∃ s : State, s.inEvent.rst = true ∧ s.resetWindow = State.reset.resetWindow :=
  ⟨⟨regsAt true 64, Config.resetWindow, [⟨true, false, abcBlock⟩], 9⟩, rfl, rfl⟩

theorem witness_DoneIsLatchedByTheLastRound : ∃ t, step (at_ false 63 idle) = .next t := ⟨_, rfl⟩

theorem witness_RoundCountsUpToSixtyFour :
    ((at_ true 64 idle).cur.Valid ∧ IdleEvent (at_ true 64 idle).inEvent ∧ ∃ t, step (at_ true 64 idle) = .next t) ∧
    ((at_ false 63 startAbc).cur.Valid ∧ ¬ IdleEvent (at_ false 63 startAbc).inEvent ∧
      ∃ t, step (at_ false 63 startAbc) = .next t) :=
  ⟨⟨by decide, by decide, _, rfl⟩, by decide, by decide, _, rfl⟩

theorem witness_HashChangesOnlyAtStartResetAndLastRound : ∃ t, step (at_ false 62 idle) = .next t := ⟨_, rfl⟩

/-- A run's state at the first and the last round of each round operation and in Done, with an edge of each of the six operations. -/
theorem witness_EveryEdgeStaysOnARun :
    (∀ n ∈ [0, 15, 16, 62, 63, 64], (stateOf (refRegs abcBlock n) [idle]).OnRunOf abcBlock) ∧
    (∀ n ∈ [0, 15, 16, 62, 63], ∃ t, step (stateOf (refRegs abcBlock n) [idle]) = .next t) ∧
    (∃ t, step (stateOf (refRegs abcBlock 64) [idle]) = .next t) ∧
    (∃ t, step (stateOf (refRegs abcBlock 64) [startAbc]) = .next t) ∧
    (∃ t, step (stateOf (refRegs abcBlock 63) [⟨true, false, abcBlock⟩]) = .next t) := by
  refine ⟨?_, ?_, ⟨_, step_of_done ⟨rfl, rfl⟩ rfl rfl⟩, ⟨_, step_of_start rfl rfl⟩, ⟨_, step_of_rst rfl⟩⟩
  · intro n hn
    have h : n ≤ 64 := by simp at hn; omega
    have hr : (refRegs abcBlock n).round.toNat = n := by
      simp only [refRegs, BitVec.toNat_ofNat]
      omega
    simp only [State.OnRunOf, stateOf, hr, h, and_self]
  · intro n hn
    have h : n < 64 := by simp at hn; omega
    refine ⟨_, step_of_computing ⟨rfl, rfl⟩ (by simp [stateOf, refRegs]; omega) ?_⟩
    simp only [stateOf, refRegs, BitVec.toNat_ofNat]
    omega

/-- The reference schedule meets the recurrence; both window clauses meet at n = 16, and n = 64 is the last. -/
theorem witness_WindowIsASliceOfTheSchedule :
    (∀ (t : Nat) (_ : t < 16), refSched abcBlock t = abcBlock[t]) ∧
    (∀ t, 16 ≤ t → t < 64 → refSched abcBlock t = gamma1 (refSched abcBlock (t - 2)) + refSched abcBlock (t - 7) +
      gamma0 (refSched abcBlock (t - 15)) + refSched abcBlock (t - 16)) ∧
    (idleState (loadingRegs abcBlock) 64).Launched abcBlock ∧
    (∀ n ∈ [0, 16, 63, 64], n ≤ 64 ∧ (idleState (loadingRegs abcBlock) 64).IdleFor n) :=
  ⟨fun t h => refSched_block _ t h, fun t h h' => refSched_expanded _ t h h', by decide, fun n hn =>
    have h : n ≤ 64 := by simp at hn; omega
    ⟨h, fun k hk => idleState_idleFor _ 64 k (by omega)⟩⟩

theorem witness_LaunchedBlockIsCompressed :
    (idleState (loadingRegs abcBlock) 64).Launched abcBlock ∧ (idleState (loadingRegs abcBlock) 64).IdleFor 64 :=
  ⟨by decide, idleState_idleFor _ 64⟩

theorem witness_StartPulseHashesTheBlock :
    (runState (regsAt true 9) startAbc 64).inEvent = ⟨false, true, abcBlock⟩ ∧
    (∀ k, 1 ≤ k → k ≤ 64 → IdleEvent ((runState (regsAt true 9) startAbc 64).eventAt k)) :=
  ⟨rfl, runState_idle _ _ 64⟩

theorem witness_RunAfterResetCompressesTheResetWindow :
    (runState (regsAt false 70) ⟨true, true, abcBlock⟩ 64).inEvent.rst = true ∧
    (∀ k, 1 ≤ k → k ≤ 64 → IdleEvent ((runState (regsAt false 70) ⟨true, true, abcBlock⟩ 64).eventAt k)) :=
  ⟨rfl, runState_idle _ _ 64⟩

theorem witness_LatencyIsSixtyFiveEdges :
    ∀ n, (runState (regsAt true 64) startAbc n).inEvent.rst = false ∧ (runState (regsAt true 64) startAbc n).inEvent.start = true ∧
      (∀ k, 1 ≤ k → k ≤ n → IdleEvent ((runState (regsAt true 64) startAbc n).eventAt k)) :=
  fun n => ⟨rfl, rfl, runState_idle _ _ n⟩

theorem witness_DonePhaseHoldsIndefinitely :
    ∀ n, (idleState (regsAt true 64) n).cur.Valid ∧ (idleState (regsAt true 64) n).cur.done = true ∧
      (idleState (regsAt true 64) n).IdleFor n :=
  fun n => ⟨show (regsAt true 64).Valid by decide, rfl, idleState_idleFor _ n⟩

theorem witness_StartHeldHighReloads :
    ∀ k, k ≤ 2 → ((stateOf (regsAt false 3) [startAbc, startAbc, startAbc]).eventAt k).rst = false ∧
      ((stateOf (regsAt false 3) [startAbc, startAbc, startAbc]).eventAt k).start = true := by decide

/-- Two states with different registers, the first of them not Valid, and the same events. -/
theorem witness_LoadLeavesNoResidue :
    ¬ (at_ true 5 startAbc).cur.Valid ∧ (stateOf abcRegs63 [startAbc]).cur.Valid ∧
    (at_ true 5 startAbc).resetWindow = (stateOf abcRegs63 [startAbc]).resetWindow ∧
    (∀ k, k ≤ 8 → (at_ true 5 startAbc).eventAt k = (stateOf abcRegs63 [startAbc]).eventAt k) ∧
    (at_ true 5 startAbc).inEvent.rst = false ∧ (at_ true 5 startAbc).inEvent.start = true :=
  ⟨by decide, by decide, rfl, fun _ _ => rfl, rfl, rfl⟩

/-- Two states whose events differ in the block of an idle edge and in the `start` of a RESET edge. -/
theorem witness_UnsampledInputsDoNotMatter :
    let s₁ := stateOf (regsAt false 3) [idle, ⟨true, false, abcBlock⟩]
    let s₂ := stateOf (regsAt false 3) [⟨false, false, Block.ones⟩, ⟨true, true, Block.ones⟩]
    s₁.cur = s₂.cur ∧ s₁.cur.Valid ∧ s₁.resetWindow = s₂.resetWindow ∧ s₁ ≠ s₂ ∧
    (∀ k, k < 2 → (s₁.eventAt k).rst = (s₂.eventAt k).rst ∧
      ((s₁.eventAt k).rst = false → (s₁.eventAt k).start = (s₂.eventAt k).start ∧
        ((s₁.eventAt k).start = true → (s₁.eventAt k).block = (s₂.eventAt k).block))) := by decide

/-- A Valid state, and lines whose events differ under two fillings, each of which differs from line to line. -/
theorem witness_StimulusLinesRunTheSameWhateverTheFill :
    let lines : List StimLine := [.rst, .start abcBlock, .idle, .idle]
    (at_ true 64 idle).cur.Valid ∧
    stimulusEvents lines (fun k => ⟨false, k == 0, if k = 2 then Block.ones else abcBlock⟩) =
      [⟨true, true, abcBlock⟩, startAbc, ⟨false, false, Block.ones⟩, idle] ∧
    stimulusEvents lines (fun k => ⟨false, k == 9, if k = 2 then abcBlock else Block.ones⟩) =
      [⟨true, false, Block.ones⟩, startAbc, idle, ⟨false, false, Block.ones⟩] := by decide

/-- The longest text that is padded, the shortest that is not, and byte 55 between. -/
theorem witness_StartMessageIsPadded :
    (List.replicate 55 (0x61 : Byte)).length ≤ 55 ∧ 55 < (List.replicate 56 (0x61 : Byte)).length ∧
    (List.replicate 54 (0x61 : Byte)).length < 55 := by decide

/-- For BlockWordsAreBigEndian, DigestBytesAreBigEndian and PackedBlockHasWordZeroOnTop. -/
theorem witness_word_indices : (15 < 16) ∧ (7 < 8) ∧ (3 < 4) := by decide

end Sys2Proof.Tests
end

/-! PROOFS. The family of 40_round_function.md: what each word function does to numbers and to bits. -/

namespace Sys2Proof.Machine

/-! ### Sums -/

/-- The sum of a list of words, read as a number, wraps at `2^32`. -/
theorem toNat_sum (xs : List Word) : xs.sum.toNat = (xs.map BitVec.toNat).sum % 2 ^ 32 := by
  induction xs with
  | nil => rfl
  | cons x xs ih => rw [List.sum_cons, BitVec.toNat_add, ih, Nat.add_mod_mod, List.map_cons, List.sum_cons]

/-- Settles O16: the fold of `add32` is a sum in the commutative ring of words. -/
theorem sumsWrapAndMayBeReordered : Obligations.SumsWrapAndMayBeReordered := by
  refine ⟨fun x y => ?_, fun xs ys hperm => ?_, fun xs => ?_⟩
  · rw [add32_eq, BitVec.toNat_add]
  · rw [sum32_eq_sum, sum32_eq_sum, hperm.sum_eq]
  · rw [sum32_eq_sum, toNat_sum]

/-! ### Rotation -/

/-- The formula of R63 is the library's rotation, whose lemmas speak of every count. -/
theorem rotr_eq_rotateRight (x : Word) (n : Nat) : rotr x n = x.rotateRight n := rfl

theorem toNat_rotr (x : Word) (n : Nat) :
    (rotr x n).toNat = (x.toNat / 2 ^ (n % 32)) ||| (x.toNat * 2 ^ (32 - n % 32) % 2 ^ 32) := by
  rw [rotr_eq_rotateRight, BitVec.toNat_rotateRight, Nat.shiftRight_eq_div_pow, Nat.shiftLeft_eq]

theorem rotr_getLsbD (x : Word) (n i : Nat) (hi : i < 32) :
    (rotr x n).getLsbD i = x.getLsbD ((i + n) % 32) := by
  rw [rotr_eq_rotateRight, BitVec.getLsbD_rotateRight]
  by_cases hlow : i < 32 - n % 32
  · rw [decide_eq_true hlow, cond_true, show n % 32 + i = (i + n) % 32 by omega]
  · rw [decide_eq_false hlow, cond_false, decide_eq_true hi, Bool.true_and,
      show i - (32 - n % 32) = (i + n) % 32 by omega]

/-- Settles O17. -/
theorem rotateRightMovesBits : Obligations.RotateRightMovesBits :=
  fun x n => ⟨toNat_rotr x n, fun i hi => rotr_getLsbD x n i hi⟩

/-! ### Choice and majority -/

theorem ch_getLsbD (x y z : Word) (i : Nat) (hi : i < 32) :
    (ch x y z).getLsbD i = if x.getLsbD i then y.getLsbD i else z.getLsbD i := by
  have choice : ∀ a b c : Bool, ((a && b) ^^ (!a && c)) = if a then b else c := by decide
  simp only [ch, BitVec.getLsbD_xor, BitVec.getLsbD_and, BitVec.getLsbD_not, decide_eq_true hi, Bool.true_and, choice]

theorem maj_getLsbD (x y z : Word) (i : Nat) :
    (maj x y z).getLsbD i = decide (2 ≤ (x.getLsbD i).toNat + (y.getLsbD i).toNat + (z.getLsbD i).toNat) := by
  have majority : ∀ a b c : Bool, ((a && b) ^^ (a && c) ^^ (b && c)) = decide (2 ≤ a.toNat + b.toNat + c.toNat) := by
    decide
  simp only [maj, BitVec.getLsbD_xor, BitVec.getLsbD_and, majority]

/-- Settles O19. -/
theorem chChoosesAndMajIsMajority : Obligations.ChChoosesAndMajIsMajority :=
  fun x y z i hi => ⟨ch_getLsbD x y z i hi, maj_getLsbD x y z i⟩

/-! ### The mixing functions -/

/-- Below bit `32 - n` the logical shift brings bit `i + n` down; from there on it brings zeros in. -/
theorem shr_getLsbD_eq_and (x : Word) (n i : Nat) :
    (shr x n).getLsbD i = (decide (i < 32 - n) && x.getLsbD (i + n)) := by
  rw [shr_getLsbD, Nat.add_comm]
  by_cases hlow : i < 32 - n
  · rw [decide_eq_true hlow, Bool.true_and]
  · rw [decide_eq_false hlow, Bool.false_and, BitVec.getLsbD_of_ge x _ (by omega)]

/-- The xor of three rotations, the shape of both sigmas (R67, R68). -/
theorem xor_three_rotr_getLsbD (x : Word) (n₁ n₂ n₃ i : Nat) (hi : i < 32) :
    (rotr x n₁ ^^^ rotr x n₂ ^^^ rotr x n₃).getLsbD i =
      ((x.getLsbD ((i + n₁) % 32) ^^ x.getLsbD ((i + n₂) % 32)) ^^ x.getLsbD ((i + n₃) % 32)) := by
  simp only [BitVec.getLsbD_xor, rotr_getLsbD x _ i hi]

/-- The xor of two rotations and a shift, the shape of both gammas (R69, R70). -/
theorem xor_two_rotr_shr_getLsbD (x : Word) (n₁ n₂ n₃ i : Nat) (hi : i < 32) :
    (rotr x n₁ ^^^ rotr x n₂ ^^^ shr x n₃).getLsbD i =
      ((x.getLsbD ((i + n₁) % 32) ^^ x.getLsbD ((i + n₂) % 32)) ^^ (decide (i < 32 - n₃) && x.getLsbD (i + n₃))) := by
  simp only [BitVec.getLsbD_xor, rotr_getLsbD x _ i hi, shr_getLsbD_eq_and]

/-- Settles O20. -/
theorem compressionSigmasBitwise : Obligations.CompressionSigmasBitwise :=
  fun x i hi => ⟨xor_three_rotr_getLsbD x 2 13 22 i hi, xor_three_rotr_getLsbD x 6 11 25 i hi⟩

/-- Settles O21. -/
theorem scheduleGammasBitwise : Obligations.ScheduleGammasBitwise :=
  fun x i hi => ⟨xor_two_rotr_shr_getLsbD x 7 18 3 i hi, xor_two_rotr_shr_getLsbD x 17 19 10 i hi⟩

end Sys2Proof.Machine

/-! PROOFS. The family of 41_controller.md: what the operations write and what they leave as it was. -/

namespace Sys2Proof.Machine

/-! ### LOAD and HOLD -/

theorem exec_load (done : Bool) (round : Round) (s : State) :
    exec (.load done round) s = .next (s.commit (loadingRegs s.inEvent.block)) := execLoad_eq s

theorem exec_hold (round : Round) (s : State) : exec (.hold round) s = .next (s.commit s.cur) := execHold_eq s

/-- The Loading values, register by register (R73). -/
theorem loadingRegs_eq (w : Window) :
    loadingRegs w =
      { h := H0, wr := ⟨H0[0], H0[1], H0[2], H0[3], H0[4], H0[5], H0[6], H0[7]⟩, round := 0, done := false, w := w } := rfl

/-- Settles O8: the operation and the step commit the same Loading values. -/
theorem loadWritesLoadingValuesAndBlock : Obligations.LoadWritesLoadingValuesAndBlock := by
  intro s
  exact ⟨fun done round => ⟨_, exec_load done round s, loadingRegs_eq _⟩,
    fun hrst hstart => ⟨_, step_of_start hrst hstart, loadingRegs_eq _⟩⟩

/-- Settles O10: in a Valid state `done` = 1 means round 64, where the step is HOLD. -/
theorem holdWritesNothing : Obligations.HoldWritesNothing := by
  intro s
  refine ⟨fun round => ⟨_, exec_hold round s, rfl⟩, fun hrst hstart hdone hvalid => ?_⟩
  obtain ⟨-, hdoneIff⟩ := hvalid
  exact ⟨_, step_of_done ⟨hrst, hstart⟩ hdone (hdoneIff.mp hdone), rfl⟩

/-! ### The round update -/

/-- The counter after a round, by the number of the round. -/
theorem round_succ_eq_ofNat (r : Round) : r + 1 = BitVec.ofNat 7 (r.toNat + 1) := by
  rw [BitVec.ofNat_add, BitVec.ofNat_toNat, BitVec.setWidth_eq]
  rfl

/-- The registers after a round update, over the operators of `BitVec` (R74). -/
theorem roundUpdate_eq (cur : CoreRegs) (wt : Word) :
    let x := cur.wr
    let t1 := x.hReg + sigma1 x.e + ch x.e x.f x.g + kConst cur.round.toNat + wt
    let t2 := sigma0 x.a + maj x.a x.b x.c
    roundUpdate cur wt =
      { cur with
        wr := { hReg := x.g, g := x.f, f := x.e, e := x.d + t1, d := x.c, c := x.b, b := x.a, a := t1 + t2 },
        round := BitVec.ofNat 7 (cur.round.toNat + 1) } := by
  simp only [roundUpdate, mixWorking_eq, round_succ_eq_ofNat]

/-- Settles O11: the equation holds at every round, since the 7-bit counter wraps as `BitVec.ofNat` does. -/
theorem roundUpdateRotatesWorkingRegisters : Obligations.RoundUpdateRotatesWorkingRegisters :=
  fun cur wt _ => roundUpdate_eq cur wt

/-! ### The rounds that expand and shift -/

theorem exec_roundExp (round : Round) (s : State) :
    exec (.roundExp round) s = .next (s.commit (expandedRound s.cur)) := execRoundExp_eq s

theorem exec_roundLast (s : State) :
    exec .roundLast s = .next (s.commit
      { expandedRound s.cur with h := accumulate s.cur.h (expandedRound s.cur).wr, done := true }) := execRoundLast_eq s

/-- In rounds 16 to 62 a round edge is the round with the expanded word. -/
theorem computingRegs_of_expanding {c : CoreRegs} (hlow : 16 ≤ c.round.toNat) (hhigh : c.round.toNat ≤ 62) :
    computingRegs c = expandedRound c := by
  rw [computingRegs, if_neg (by omega), if_pos (by omega)]

/-- In round 63 a round edge also accumulates and sets `done`. -/
theorem computingRegs_of_last {c : CoreRegs} (hround : c.round.toNat = 63) :
    computingRegs c = { expandedRound c with h := accumulate c.h (expandedRound c).wr, done := true } := by
  rw [computingRegs, if_neg (by omega), if_neg (by omega)]

/-- The registers after a round with the expanded word: the round update of R74, and the window one place down (R76, R89). -/
theorem expandedRound_eq (c : CoreRegs) :
    let x := c.wr
    let w := c.w
    let wt := gamma1 w[14] + w[9] + gamma0 w[1] + w[0]
    let t1 := x.hReg + sigma1 x.e + ch x.e x.f x.g + kConst c.round.toNat + wt
    let t2 := sigma0 x.a + maj x.a x.b x.c
    expandedRound c =
      { c with
        wr := { hReg := x.g, g := x.f, f := x.e, e := x.d + t1, d := x.c, c := x.b, b := x.a, a := t1 + t2 },
        round := BitVec.ofNat 7 (c.round.toNat + 1),
        w := #v[w[1], w[2], w[3], w[4], w[5], w[6], w[7], w[8], w[9], w[10], w[11], w[12], w[13], w[14], w[15], wt] } := by
  simp only [expandedRound, roundUpdate_eq, shift, expand_eq]

/-- Settles O13: the operation and the step at rounds 16 to 62 commit the same round with the expanded word. -/
theorem roundExpExpandsAndShifts : Obligations.RoundExpExpandsAndShifts := by
  intro s hlow hhigh
  refine ⟨fun round => ⟨_, exec_roundExp round s, expandedRound_eq s.cur⟩, fun hrst hstart hdone => ?_⟩
  have hstep := step_of_computing ⟨hrst, hstart⟩ hdone (by omega)
  rw [computingRegs_of_expanding hlow hhigh] at hstep
  exact ⟨_, hstep, expandedRound_eq s.cur⟩

/-- Settles O14: the operation and the step at round 63 commit the round with the expanded word, whose working registers are
added to the old `h`. -/
theorem roundLastAccumulatesAndSetsDone : Obligations.RoundLastAccumulatesAndSetsDone := by
  intro s hround x w h wt t1 t2 nxt
  have hnxt : { expandedRound s.cur with h := accumulate s.cur.h (expandedRound s.cur).wr, done := true } = nxt := by
    rw [expandedRound_eq, accumulate_eq, hround]
    rfl
  refine ⟨⟨_, exec_roundLast s, hnxt⟩, fun hrst hstart hdone => ?_⟩
  have hstep := step_of_computing ⟨hrst, hstart⟩ hdone (by omega)
  rw [computingRegs_of_last hround] at hstep
  exact ⟨_, hstep, hnxt⟩

end Sys2Proof.Machine

/-! PROOFS. The family of 42_schedule_window.md: the schedule word of a round, and the expansion it is taken from. -/

namespace Sys2Proof.Machine

/-! ### Edges in Computing -/

/-- An edge without start or reset in Computing is a round below 64, and commits the registers after that round (R71, R55). -/
theorem computing_edge {s t : State} (hidle : IdleEvent s.inEvent) (hdone : s.cur.done = false) (hstep : step s = .next t) :
    s.cur.round.toNat < 64 ∧ t.cur = computingRegs s.cur := by
  obtain ⟨hrst, hstart⟩ := hidle
  rcases step_cases hstep with ⟨hrst', -⟩ | ⟨-, hstart', -⟩ | ⟨-, hdone', -⟩ | ⟨-, -, hround, rfl⟩
  · exact absurd hrst' (by simp [hrst])
  · exact absurd hstart' (by simp [hstart])
  · exact absurd hdone' (by simp [hdone])
  · exact ⟨hround, rfl⟩

/-- Every round, of whichever operation, consumes the schedule word of its number (R87). -/
theorem computingRegs_wr {c : CoreRegs} (hround : c.round.toNat < 64) :
    (computingRegs c).wr = mixWorking c.wr (kConst c.round.toNat) (sched c.w c.round.toNat) := by
  by_cases hlow : c.round.toNat < 16
  · rw [computingRegs, if_pos hlow, roundUpdate_wr]
  · rw [sched_expanded _ _ (by omega) hround]
    by_cases hmid : c.round.toNat ≤ 62
    · rw [computingRegs_of_expanding (by omega) hmid, expandedRound_wr]
    · rw [computingRegs_of_last (by omega), expandedRound_wr]

/-- From round 16 on a round shifts the window and appends the expansion of the old one (R88, R89). -/
theorem computingRegs_w_of_ge {c : CoreRegs} (hlow : 16 ≤ c.round.toNat) (hround : c.round.toNat < 64) :
    (computingRegs c).w = shift c.w (expand c.w) := by
  by_cases hmid : c.round.toNat ≤ 62
  · rw [computingRegs_of_expanding hlow hmid, expandedRound_w]
  · rw [computingRegs_of_last (by omega), expandedRound_w]

/-- Settles O24: the three cases of the schedule word, and the one that each round of Computing consumes. -/
theorem scheduleWordOfEachRound : Obligations.ScheduleWordOfEachRound := by
  refine ⟨sched_of_lt, sched_expanded, sched_past, fun s t hidle hdone hstep => ?_⟩
  obtain ⟨hround, hcur⟩ := computing_edge hidle hdone hstep
  exact ⟨hround, by rw [hcur, computingRegs_wr hround]⟩

/-! ### The expansion -/

/-- Writing an entry other than 0, 1, 9 and 14 leaves the expansion as it was (R88). -/
theorem expand_set (w : Window) (x : Word) {i : Nat} (hi : i < 16) (h0 : i ≠ 0) (h1 : i ≠ 1) (h9 : i ≠ 9) (h14 : i ≠ 14) :
    expand (w.set i x) = expand w := by
  rw [expand_eq, expand_eq, Vector.getElem_set_ne hi _ h0, Vector.getElem_set_ne hi _ h1, Vector.getElem_set_ne hi _ h9,
    Vector.getElem_set_ne hi _ h14]

/-- Settles O25: the word used in a round from 16 on and the word appended are one expansion, of the window before the shift. -/
theorem expandReadsFourEntries : Obligations.ExpandReadsFourEntries := by
  refine ⟨expand_eq, fun w x _ hi h0 h1 h9 h14 => expand_set w x hi h0 h1 h9 h14, fun s t hidle hdone hlow hstep => ?_⟩
  obtain ⟨hround, hcur⟩ := computing_edge hidle hdone hstep
  have happended : t.cur.w = shift s.cur.w (expand s.cur.w) := by rw [hcur, computingRegs_w_of_ge hlow hround]
  refine ⟨?_, ?_⟩
  · simp only [happended, shift_last]
  · rw [hcur, computingRegs_wr hround, sched_expanded _ _ hlow hround]

end Sys2Proof.Machine

/-! PROOFS. The family of 30_encoding.md: the decoder over the fields of the selector word, and what a step makes of it. -/

namespace Sys2Proof.Machine

/-! ### Decoding and encoding -/

theorem exists_packSelector (sel : Sel) : ∃ rst start done round, sel = packSelector rst start done round :=
  ⟨sel.rst, sel.start, sel.done, sel.round, (packSelector_fields sel).symm⟩

theorem holdGuard_iff (round : Round) : holdGuard round = true ↔ round = 64#7 := beq_iff_eq

theorem roundExpGuard_iff (round : Round) : roundExpGuard round = true ↔ 16 ≤ round.toNat ∧ round.toNat ≤ 62 :=
  decide_eq_true_iff

/-- ROUND_LO's encoding is the selector word of an idle edge in the round it carries (R52, R53). -/
theorem encode_roundLo (r : BitVec 4) : encode (.roundLo r) = packSelector false false false (r.setWidth 7) := by
  revert r
  decide

/-- ROUND_LAST's encoding is the selector word of an idle edge in round 63 (R52, R53). -/
theorem encode_roundLast : encode .roundLast = packSelector false false false 63#7 := rfl

theorem setWidth_toNat_lt (r : BitVec 4) : (r.setWidth 7 : Round).toNat < 16 := by
  rw [BitVec.toNat_setWidth]
  omega

/-- The four round bits that ROUND_LO carries are the whole round below 16. -/
theorem setWidth_extractLsb'_of_lt {t : Round} (h : t.toNat < 16) : (t.extractLsb' 0 4).setWidth 7 = t := by
  apply BitVec.eq_of_toNat_eq
  simp only [BitVec.toNat_setWidth, BitVec.extractLsb'_toNat, Nat.shiftRight_zero]
  omega

theorem decode_encode {i : Instr} (hwf : i.wellFormed = true) : decode (encode i) = .ok i := by
  cases i with
  | reset start done round => exact decode_reset start done round
  | load done round => exact decode_load done round
  | hold round =>
    rw [encode, decode_done, if_pos ((holdGuard_iff round).mp hwf)]
  | roundLo r =>
    rw [encode_roundLo, decode_computing, if_pos (setWidth_toNat_lt r), BitVec.extractLsb'_setWidth_of_le (by decide),
      BitVec.extractLsb'_eq_self]
  | roundLast => rfl
  | roundExp round =>
    obtain ⟨hlow, hhigh⟩ := (roundExpGuard_iff round).mp hwf
    rw [encode, decode_computing, if_neg (by omega), if_pos (by omega)]

/-- A round of Computing that decodes is carried by the well-formed operation it decodes to. -/
theorem encode_of_decode_computing {t : Round} {i : Instr} (h : decode (packSelector false false false t) = .ok i) :
    i.wellFormed = true ∧ encode i = packSelector false false false t := by
  rw [decode_computing] at h
  split at h
  next hlow =>
    cases h
    exact ⟨rfl, by rw [encode_roundLo, setWidth_extractLsb'_of_lt hlow]⟩
  next hlow =>
    split at h
    next hmid =>
      cases h
      exact ⟨(roundExpGuard_iff t).mpr (by omega), rfl⟩
    next hmid =>
      split at h
      next hlast =>
        cases h
        exact ⟨rfl, by rw [encode_roundLast, show t = 63#7 from BitVec.eq_of_toNat_eq hlast]⟩
      next => cases h

/-- A word that decodes is the encoding of the well-formed operation it decodes to, by the rows of R53. -/
theorem encode_of_decode {sel : Sel} {i : Instr} (h : decode sel = .ok i) : i.wellFormed = true ∧ encode i = sel := by
  obtain ⟨rst, start, done, t, rfl⟩ := exists_packSelector sel
  match rst, start, done with
  | true, _, _ =>
    rw [decode_reset] at h
    cases h
    exact ⟨rfl, rfl⟩
  | false, true, _ =>
    rw [decode_load] at h
    cases h
    exact ⟨rfl, rfl⟩
  | false, false, true =>
    rw [decode_done] at h
    split at h
    next hround =>
      cases h
      exact ⟨(holdGuard_iff t).mpr hround, rfl⟩
    next => cases h
  | false, false, false => exact encode_of_decode_computing h

/-- Settles O4. -/
theorem decodeAndEncodeAgree : Obligations.DecodeAndEncodeAgree :=
  ⟨fun _ hwf => decode_encode hwf, fun _ _ h => encode_of_decode h⟩

/-- Settles O3: words of the decode vectors, evaluated. -/
theorem selectorWordsDecode : Obligations.SelectorWordsDecode := by
  unfold Obligations.SelectorWordsDecode
  decide

/-! ### The rows of the decode table -/

/-- The mnemonics of the rows that apply to a selector word, by its fields (R53, R54). -/
theorem applyingRows_packSelector : ∀ (rst start done : Bool) (t : Round),
    (decodeTable.filter fun r => r.applies (packSelector rst start done t)).map Row.mnemonic =
      if rst then ["RESET"]
      else if start then ["LOAD"]
      else if done then if t = 64#7 then ["HOLD"] else []
      else if t.toNat < 16 then ["ROUND_LO"]
      else if t.toNat < 63 then ["ROUND_EXP"]
      else if t.toNat = 63 then ["ROUND_LAST"]
      else [] := by decide

/-- The rows that apply to the encoding of a well-formed operation are its own row alone. -/
theorem applyingRows_encode {i : Instr} (hwf : i.wellFormed = true) :
    (decodeTable.filter fun r => r.applies (encode i)).map Row.mnemonic = [i.mnemonic] := by
  cases i with
  | reset start done round => exact applyingRows_packSelector true start done round
  | load done round => exact applyingRows_packSelector false true done round
  | hold round =>
    rw [encode, applyingRows_packSelector]
    simp [(holdGuard_iff round).mp hwf, Instr.mnemonic]
  | roundLo r =>
    rw [encode_roundLo, applyingRows_packSelector]
    simp only [Bool.false_eq_true, if_false, if_pos (setWidth_toNat_lt r), Instr.mnemonic]
  | roundLast => exact applyingRows_packSelector false false false 63#7
  | roundExp round =>
    obtain ⟨hlow, hhigh⟩ := (roundExpGuard_iff round).mp hwf
    rw [encode, applyingRows_packSelector]
    simp only [Bool.false_eq_true, if_false, if_neg (show ¬ round.toNat < 16 by omega),
      if_pos (show round.toNat < 63 by omega), Instr.mnemonic]

/-! ### The selector word and the step -/

theorem step_of_decode_ok {s : State} {i : Instr} (h : decode s.selector = .ok i) : step s = exec i s := by
  rw [step, h]

theorem step_of_decode_error {s : State} {r : Reserved} (h : decode s.selector = .error r) :
    step s = .refused (.reservedSelector r) := by
  rw [step, h]

/-- Settles O1: an encoding decodes to its operation. -/
theorem stepRunsDecodedOperation : Obligations.StepRunsDecodedOperation :=
  ⟨fun _ _ h => step_of_decode_ok h, fun _ _ hwf h => step_of_decode_ok (h ▸ decode_encode hwf)⟩

/-- Settles O2. -/
theorem selectorShowsInputsAndControlState : Obligations.SelectorShowsInputsAndControlState :=
  fun _ => ⟨packSelector_rst .., packSelector_start .., packSelector_done .., packSelector_round ..⟩

theorem placeSelector_selector (s : State) (sel : Sel) : (s.placeSelector sel).selector = sel := packSelector_fields sel

/-- A table word of 10 bits is placed whole when its row's width leaves room for it. -/
theorem withFetchWord_of_lt (s : State) {nbits w : Nat} (hn : 10 ≤ nbits) (hw : w < 2 ^ 10) :
    s.withFetchWord nbits w = s.placeSelector (BitVec.ofNat 10 w) := by
  rw [State.withFetchWord, Nat.mod_eq_of_lt (hw.trans_le (Nat.pow_le_pow_right two_pos hn))]

/-- A table word of 10 bits reads as the selector word it is. -/
theorem decodeTableWord_of_lt {nbits w : Nat} (hn : 10 ≤ nbits) (hw : w < 2 ^ 10) :
    decodeTableWord nbits w = (decode (BitVec.ofNat 10 w)).toOption := by
  rw [decodeTableWord, Nat.mod_eq_of_lt (hw.trans_le (Nat.pow_le_pow_right two_pos hn)), if_pos hw]
  cases decode (BitVec.ofNat 10 w) <;> rfl

/-- Settles O7: the placed word is the selector word of the next edge, so the step decodes it. -/
theorem placedTableWordIsTheNextOperation : Obligations.PlacedTableWordIsTheNextOperation := by
  intro s nbits w hn hw
  rw [withFetchWord_of_lt s hn hw, decodeTableWord_of_lt hn hw]
  have hsel := placeSelector_selector s (BitVec.ofNat 10 w)
  refine ⟨hsel, fun i hi => step_of_decode_ok ?_, fun hnone => ?_⟩
  · rw [hsel]
    cases hdec : decode (BitVec.ofNat 10 w) with
    | ok j =>
      rw [hdec] at hi
      exact congrArg _ (Option.some.inj hi)
    | error r => simp [hdec, Except.toOption] at hi
  · cases hdec : decode (BitVec.ofNat 10 w) with
    | ok j => simp [hdec, Except.toOption] at hnone
    | error r => exact ⟨r, step_of_decode_error (hsel.symm ▸ hdec)⟩

/-! ### Registers after a round edge -/

/-- The rounds up to 15 are the round update with the window entry of the round (R75). -/
theorem computingRegs_of_lt {c : CoreRegs} (hround : c.round.toNat < 16) :
    computingRegs c = roundUpdate c c.w[c.round.toNat] := by
  rw [computingRegs, if_pos hround, sched_of_lt _ _ hround]

/-- A round edge writes `h` only in round 63 (R75, R76). -/
theorem computingRegs_h_of_lt {c : CoreRegs} (hround : c.round.toNat < 63) : (computingRegs c).h = c.h := by
  by_cases hlow : c.round.toNat < 16
  · rw [computingRegs_of_lt hlow, roundUpdate_h]
  · rw [computingRegs_of_expanding (by omega) (by omega), expandedRound_h]

/-- Round 63 adds the new working registers to `h` (R77). -/
theorem computingRegs_h_of_last {c : CoreRegs} (hround : c.round.toNat = 63) :
    (computingRegs c).h = accumulate c.h (computingRegs c).wr := by
  rw [computingRegs_of_last hround]

/-- A round edge below 63 keeps `done`, and round 63 sets it (R75, R76, R77). -/
theorem computingRegs_done {c : CoreRegs} (hround : c.round.toNat < 64) :
    (computingRegs c).done = (c.done || c.round.toNat == 63) := by
  by_cases hlast : c.round.toNat = 63
  · rw [computingRegs_of_last hlast, hlast, beq_self_eq_true, Bool.or_true]
  · rw [beq_false_of_ne hlast, Bool.or_false]
    by_cases hlow : c.round.toNat < 16
    · rw [computingRegs_of_lt hlow, roundUpdate_done]
    · rw [computingRegs_of_expanding (by omega) (by omega), expandedRound_done]

/-! ### Valid states -/

/-- R23 in Computing and in Done. -/
theorem valid_iff (c : CoreRegs) : c.Valid ↔ if c.done then c.round.toNat = 64 else c.round.toNat < 64 := by
  cases hdone : c.done <;> simp [CoreRegs.Valid, hdone] <;> omega

theorem valid_loadingRegs (w : Window) : (loadingRegs w).Valid := by simp [valid_iff]

theorem valid_computingRegs {c : CoreRegs} (hdone : c.done = false) (hround : c.round.toNat < 64) :
    (computingRegs c).Valid := by
  rw [valid_iff, computingRegs_done hround, computingRegs_round, round_succ_toNat _ hround, hdone]
  by_cases hlast : c.round.toNat = 63
  · simp [hlast]
  · simp [hlast]
    omega

/-- Every edge that answers leaves a Valid state. -/
theorem valid_of_step {s t : State} (h : step s = .next t) : t.cur.Valid := by
  rcases step_cases h with ⟨-, rfl⟩ | ⟨-, -, rfl⟩ | ⟨-, hdone, hround, rfl⟩ | ⟨-, hdone, hround, rfl⟩
  · exact valid_loadingRegs _
  · exact valid_loadingRegs _
  · exact (valid_iff _).mpr (by simp [hdone, hround])
  · exact valid_computingRegs hdone hround

/-- The registers after an edge that samples the event `e`, from a state that has a step (R53, R71). -/
def nextRegs (c : CoreRegs) (e : InputEvent) (resetWindow : Window) : CoreRegs :=
  if e.rst then loadingRegs resetWindow
  else if e.start then loadingRegs e.block
  else if c.done then c
  else computingRegs c

theorem nextRegs_of_rst {e : InputEvent} (hrst : e.rst = true) (c : CoreRegs) (w : Window) :
    nextRegs c e w = loadingRegs w := if_pos hrst

theorem nextRegs_of_start {e : InputEvent} (hrst : e.rst = false) (hstart : e.start = true) (c : CoreRegs) (w : Window) :
    nextRegs c e w = loadingRegs e.block := by
  simp [nextRegs, hrst, hstart]

theorem nextRegs_of_idle {e : InputEvent} (hidle : IdleEvent e) (c : CoreRegs) (w : Window) :
    nextRegs c e w = if c.done then c else computingRegs c := by
  simp [nextRegs, hidle.1, hidle.2]

/-- From a Valid state, and at a start or reset edge from any state, the edge answers and commits `nextRegs`. -/
theorem step_eq_commit_nextRegs {s : State} (h : s.cur.Valid ∨ ¬ IdleEvent s.inEvent) :
    step s = .next (s.commit (nextRegs s.cur s.inEvent s.resetWindow)) := by
  cases hrst : s.inEvent.rst with
  | true => rw [step_of_rst hrst, nextRegs_of_rst hrst]
  | false =>
    cases hstart : s.inEvent.start with
    | true => rw [step_of_start hrst hstart, nextRegs_of_start hrst hstart]
    | false =>
      have hidle : IdleEvent s.inEvent := ⟨hrst, hstart⟩
      have hvalid := (valid_iff _).mp (h.resolve_right (not_not_intro hidle))
      rw [nextRegs_of_idle hidle]
      cases hdone : s.cur.done with
      | true => rw [step_of_done hidle hdone (by simpa [hdone] using hvalid), if_pos rfl]
      | false =>
        rw [step_of_computing hidle hdone (by simpa [hdone] using hvalid), if_neg Bool.false_ne_true]

theorem safeEdge_iff (s : State) : s.SafeEdge ↔ s.cur.Valid ∨ ¬ IdleEvent s.inEvent := by
  constructor
  · rintro ⟨t, hstep, -⟩
    by_contra hcon
    obtain ⟨hinvalid, hidle⟩ := not_or.mp hcon
    obtain ⟨r, hr⟩ := step_of_reserved (not_not.mp hidle) hinvalid
    cases hstep.symm.trans hr
  · exact fun h => ⟨_, step_eq_commit_nextRegs h, valid_of_step (step_eq_commit_nextRegs h)⟩

/-- A Valid state's selector word decodes: the guards of R54 and the reserved words of R55 meet no Valid state. -/
theorem exists_decode_of_valid {s : State} (hvalid : s.cur.Valid) : ∃ i, decode s.selector = .ok i := by
  cases hdec : decode s.selector with
  | ok i => exact ⟨i, rfl⟩
  | error r => cases (step_of_decode_error hdec).symm.trans (step_eq_commit_nextRegs (.inl hvalid))

/-- Settles O5: the decoded operation is well formed and encoded by the selector word, so its row alone applies. -/
theorem exactlyOneRowAppliesInValidStates : Obligations.ExactlyOneRowAppliesInValidStates := by
  intro s hvalid
  obtain ⟨i, hdec⟩ := exists_decode_of_valid hvalid
  obtain ⟨hwf, henc⟩ := encode_of_decode hdec
  exact ⟨i, hdec, henc ▸ applyingRows_encode hwf, (safeEdge_iff s).mpr (.inl hvalid)⟩

/-- R55: the reserved selector words, by their fields. -/
theorem exists_decode_error_iff (sel : Sel) : (∃ r, decode sel = .error r) ↔
    sel.rst = false ∧ sel.start = false ∧
      ((sel.done = false ∧ 64 ≤ sel.round.toNat) ∨ (sel.done = true ∧ sel.round.toNat ≠ 64)) := by
  obtain ⟨rst, start, done, t, rfl⟩ := exists_packSelector sel
  simp only [packSelector_rst, packSelector_start, packSelector_done, packSelector_round]
  match rst, start, done with
  | true, _, _ => simp [decode_reset]
  | false, true, _ => simp [decode_load]
  | false, false, true =>
    rw [decode_done]
    by_cases hround : t = 64#7
    · simp [hround]
    · have hne : t.toNat ≠ 64 := fun h => hround (BitVec.eq_of_toNat_eq h)
      simp [hround, hne]
  | false, false, false =>
    rw [decode_computing]
    by_cases hround : 64 ≤ t.toNat
    · simp [hround, show ¬ t.toNat < 16 by omega, show ¬ t.toNat < 63 by omega, show ¬ t.toNat = 63 by omega]
    · simp only [hround, and_false, Bool.false_eq_true, false_and, or_self, iff_false]
      split_ifs
      · simp
      · simp
      · simp
      · omega

/-- Settles O6. -/
theorem reservedSelectorsHaveNoStep : Obligations.ReservedSelectorsHaveNoStep :=
  ⟨exists_decode_error_iff, fun _ hinvalid hidle => step_of_reserved hidle hinvalid,
    fun s hloading => (safeEdge_iff s).mpr (.inr hloading), fun _ _ hstep => valid_of_step hstep⟩

end Sys2Proof.Machine

/-! PROOFS. 41_controller.md and 42_schedule_window.md, edge by edge: what RESET and ROUND_LO write, and what an edge leaves in
the window, `done`, `round` and `h`. -/

namespace Sys2Proof.Machine

/-! ### RESET, ROUND_LO and the one edge of every operation -/

theorem exec_reset (start done : Bool) (round : Round) (s : State) :
    exec (.reset start done round) s = .next (s.commit (loadingRegs s.resetWindow)) := execReset_eq s

theorem exec_roundLo (round : BitVec 4) (s : State) :
    exec (.roundLo round) s = .next (s.commit (roundUpdate s.cur (sched s.cur.w s.cur.round.toNat))) := execRoundLo_eq s

/-- Settles O9: the operation and the step commit the Loading values with the reset window. -/
theorem resetWritesLoadingValuesAndResetWindow : Obligations.ResetWritesLoadingValuesAndResetWindow := by
  intro s
  exact ⟨fun start done round => ⟨_, exec_reset start done round s, loadingRegs_eq _⟩,
    fun hrst => ⟨_, step_of_rst hrst, loadingRegs_eq _⟩⟩

/-- Settles O12: the operation and the step up to round 15 commit the round update with the window entry of the round. -/
theorem roundLoUsesWindowEntryOfTheRound : Obligations.RoundLoUsesWindowEntryOfTheRound := by
  intro s hround
  refine ⟨fun round => ⟨_, exec_roundLo round s, ?_⟩, fun hrst hstart hdone => ?_⟩
  · rw [State.commit_cur, sched_of_lt _ _ hround]
    exact roundUpdate_eq s.cur _
  · refine ⟨_, step_of_computing ⟨hrst, hstart⟩ hdone (by omega), ?_⟩
    rw [State.commit_cur, computingRegs_of_lt hround]
    exact roundUpdate_eq s.cur _

theorem exec_eq_commit (i : Instr) (s : State) : ∃ nxt, exec i s = .next (s.commit nxt) := by
  cases i with
  | reset start done round => exact ⟨_, exec_reset start done round s⟩
  | load done round => exact ⟨_, exec_load done round s⟩
  | hold round => exact ⟨_, exec_hold round s⟩
  | roundLo round => exact ⟨_, exec_roundLo round s⟩
  | roundLast => exact ⟨_, exec_roundLast s⟩
  | roundExp round => exact ⟨_, exec_roundExp round s⟩

/-- Settles O15: every operation commits one edge, and the frame is that of the commit. -/
theorem everyOperationTakesOneEdge : Obligations.EveryOperationTakesOneEdge := by
  intro i s
  obtain ⟨nxt, hexec⟩ := exec_eq_commit i s
  exact ⟨_, hexec, s.commit_stimulus nxt, s.commit_edge nxt, s.commit_resetWindow nxt⟩

/-! ### What each kind of edge commits -/

/-- An edge that answers commits `nextRegs` (R71). -/
theorem eq_commit_of_step {s t : State} (hstep : step s = .next t) :
    t = s.commit (nextRegs s.cur s.inEvent s.resetWindow) :=
  have hsafe : s.SafeEdge := ⟨t, hstep, valid_of_step hstep⟩
  Host.Outcome.next.inj (hstep.symm.trans (step_eq_commit_nextRegs ((safeEdge_iff s).mp hsafe)))

theorem cur_of_step {s t : State} (hstep : step s = .next t) : t.cur = nextRegs s.cur s.inEvent s.resetWindow := by
  rw [eq_commit_of_step hstep, State.commit_cur]

/-- A start or reset edge leaves the Loading values with one window or the other (R72, R73). -/
theorem loading_edge {s t : State} (hloading : ¬ IdleEvent s.inEvent) (hstep : step s = .next t) :
    ∃ w, t.cur = loadingRegs w := by
  rcases step_cases hstep with ⟨-, rfl⟩ | ⟨-, -, rfl⟩ | ⟨hidle, -⟩ | ⟨hidle, -⟩
  · exact ⟨_, rfl⟩
  · exact ⟨_, rfl⟩
  · exact absurd hidle hloading
  · exact absurd hidle hloading

/-- An edge without start or reset in Done answers in round 64 and writes no register (R78, R55). -/
theorem done_edge {s t : State} (hidle : IdleEvent s.inEvent) (hdone : s.cur.done = true) (hstep : step s = .next t) :
    s.cur.round.toNat = 64 ∧ t.cur = s.cur := by
  have hcur := cur_of_step hstep
  rw [nextRegs_of_idle hidle, if_pos hdone] at hcur
  have hvalid := (valid_iff _).mp (valid_of_step hstep)
  rw [hcur, if_pos hdone] at hvalid
  exact ⟨hvalid, hcur⟩

/-! ### The window, `done`, `round` and `h` after an edge -/

/-- Up to round 15 a round keeps the window (R75, R90). -/
theorem computingRegs_w_of_lt {c : CoreRegs} (hround : c.round.toNat < 16) : (computingRegs c).w = c.w := by
  rw [computingRegs_of_lt hround, roundUpdate_w]

/-- Settles O26. -/
theorem windowShiftsFromRoundSixteenOn : Obligations.WindowShiftsFromRoundSixteenOn := by
  refine ⟨fun w x => ⟨shift_get w x, shift_last w x⟩, fun s t hstep => ⟨?_, ?_, fun hrst => ?_, fun hrst hstart => ?_⟩⟩
  · intro hidle hdone hlow
    obtain ⟨hround, hcur⟩ := computing_edge hidle hdone hstep
    rw [hcur, computingRegs_w_of_ge hlow hround]
  · intro hidle hstays
    cases hdone : s.cur.done with
    | true => rw [(done_edge hidle hdone hstep).2]
    | false =>
      have hlow : s.cur.round.toNat < 16 := hstays.resolve_left (by simp [hdone])
      rw [(computing_edge hidle hdone hstep).2, computingRegs_w_of_lt hlow]
  · rw [cur_of_step hstep, nextRegs_of_rst hrst, loadingRegs_w]
  · rw [cur_of_step hstep, nextRegs_of_start hrst hstart, loadingRegs_w]

/-- Settles O29. -/
theorem doneIsLatchedByTheLastRound : Obligations.DoneIsLatchedByTheLastRound := by
  intro s t hstep
  by_cases hidle : IdleEvent s.inEvent
  · rw [and_iff_right hidle]
    cases hdone : s.cur.done with
    | true => simp [(done_edge hidle hdone hstep).2, hdone]
    | false =>
      obtain ⟨hround, hcur⟩ := computing_edge hidle hdone hstep
      simp [hcur, computingRegs_done hround, hdone]
  · obtain ⟨w, hcur⟩ := loading_edge hidle hstep
    simp only [hcur, loadingRegs_done, hidle, false_and, Bool.false_eq_true]

/-- Settles O30: in a Valid state an idle edge is a round below 64, or HOLD in round 64. -/
theorem roundCountsUpToSixtyFour : Obligations.RoundCountsUpToSixtyFour := by
  intro s t _ hstep
  refine ⟨fun hidle => ?_, fun hloading => ?_⟩
  · cases hdone : s.cur.done with
    | true =>
      obtain ⟨hround, hcur⟩ := done_edge hidle hdone hstep
      rw [hcur, hround]
      rfl
    | false =>
      obtain ⟨hround, hcur⟩ := computing_edge hidle hdone hstep
      rw [hcur, computingRegs_round, round_succ_toNat _ hround, min_eq_left hround]
  · obtain ⟨w, hcur⟩ := loading_edge hloading hstep
    rw [hcur, loadingRegs_round]

/-- Settles O31: of the edges without start or reset, round 63 alone writes `h`. -/
theorem hashChangesOnlyAtStartResetAndLastRound : Obligations.HashChangesOnlyAtStartResetAndLastRound := by
  intro s t hstep
  by_cases hidle : IdleEvent s.inEvent
  · cases hdone : s.cur.done with
    | true => exact .inl (by rw [(done_edge hidle hdone hstep).2])
    | false =>
      obtain ⟨hround, hcur⟩ := computing_edge hidle hdone hstep
      by_cases hlast : s.cur.round.toNat = 63
      · refine .inr (.inr ⟨hidle, rfl, hlast, ?_, ?_⟩)
        · rw [hcur, computingRegs_round, round_succ_toNat _ hround, hlast]
        · rw [hcur, computingRegs_done hround, hlast, beq_self_eq_true, Bool.or_true]
      · exact .inl (by rw [hcur, computingRegs_h_of_lt (by omega)])
  · obtain ⟨w, hcur⟩ := loading_edge hidle hstep
    exact .inr (.inl ⟨hidle, by rw [hcur, loadingRegs_h]⟩)

end Sys2Proof.Machine

/-! PROOFS. A run on a block: the registers after t edges are those of the SHA-256 compression after t rounds (R84, R86, R91). -/

namespace Sys2Proof.Machine

/-! ### The reference registers, one round on -/

/-- A launched core is at the start of the reference run. -/
theorem refRegs_zero (block : Block) : refRegs block 0 = loadingRegs block := by
  rw [refRegs, refWindow_of_le block 0 (Nat.zero_le 16)]
  rfl

theorem refRegs_round_toNat {n : Nat} (hn : n ≤ 64) (block : Block) : (refRegs block n).round.toNat = n := by
  rw [refRegs, BitVec.toNat_ofNat, Nat.mod_eq_of_lt (by omega)]

theorem refRegs_done (block : Block) (n : Nat) : (refRegs block n).done = (n == 64) := rfl

theorem refRegs_h_of_ne (block : Block) {n : Nat} (hn : n ≠ 64) : (refRegs block n).h = H0 := if_neg hn

theorem refRegs_h_last (block : Block) : (refRegs block 64).h = compress block := by
  rw [refRegs, if_pos rfl]

/-- The schedule word of the core's window is the one of the message schedule, in rounds 0 to 15 an entry of it and from round
16 on its expansion (R87, R91). -/
theorem sched_refWindow (block : Block) {n : Nat} (hn : n < 64) : sched (refWindow block n) n = refSched block n := by
  by_cases hlow : n < 16
  · rw [sched_of_lt _ _ hlow, refWindow_get _ _ _ hlow, Nat.sub_eq_zero_of_le hlow.le, Nat.zero_add]
  · rw [sched_expanded _ _ (by omega) hn, expand_eq, refWindow_get _ _ _ (by decide), refWindow_get _ _ _ (by decide),
      refWindow_get _ _ _ (by decide), refWindow_get _ _ _ (by decide), refSched_expanded block n (by omega) hn,
      show n - 16 + 14 = n - 2 by omega, show n - 16 + 9 = n - 7 by omega, show n - 16 + 1 = n - 15 by omega, Nat.add_zero]

/-- Shifting in the next schedule word moves the reference window one word along the schedule (R89, R91). -/
theorem shift_refWindow (block : Block) {n : Nat} (hn : 16 ≤ n) :
    shift (refWindow block n) (refSched block n) = refWindow block (n + 1) := by
  ext1 i hi
  rw [refWindow_get _ _ _ hi]
  by_cases hlast : i = 15
  · subst hlast
    rw [shift_last, show n + 1 - 16 + 15 = n by omega]
  · rw [shift_get _ _ _ (by omega), refWindow_get _ _ _ (by omega), show n + 1 - 16 + i = n - 16 + (i + 1) by omega]

/-- The window after round n of the reference run. -/
theorem computingRegs_refRegs_w (block : Block) {n : Nat} (hn : n < 64) :
    (computingRegs (refRegs block n)).w = refWindow block (n + 1) := by
  have hround := refRegs_round_toNat hn.le block
  by_cases hlow : n < 16
  · rw [computingRegs_w_of_lt (by rw [hround]; exact hlow), refWindow_of_le block (n + 1) hlow]
    exact refWindow_of_le block n hlow.le
  · rw [computingRegs_w_of_ge (by omega) (by omega), ← shift_refWindow block (by omega), ← sched_refWindow block hn,
      sched_expanded _ _ (by omega) hn]
    rfl

/-- Equal fields make equal registers. -/
theorem CoreRegs.eq_of_fields {c d : CoreRegs} (hh : c.h = d.h) (hwr : c.wr = d.wr) (hround : c.round = d.round)
    (hdone : c.done = d.done) (hw : c.w = d.w) : c = d := by
  cases c
  cases d
  simp_all

/-- The accumulators after round n of the reference run: only round 63 writes them, and it adds the final working registers. -/
theorem computingRegs_refRegs_h (block : Block) {n : Nat} (hn : n < 64)
    (hwr : (computingRegs (refRegs block n)).wr = refWorking block (n + 1)) :
    (computingRegs (refRegs block n)).h = (refRegs block (n + 1)).h := by
  have hround := refRegs_round_toNat hn.le block
  by_cases hlast : n = 63
  · subst hlast
    rw [computingRegs_h_of_last hround, hwr, refRegs_h_last, refRegs_h_of_ne block (by decide)]
    rfl
  · rw [computingRegs_h_of_lt (by omega), refRegs_h_of_ne block (by omega), refRegs_h_of_ne block (by omega)]

/-- Round n of the core takes the reference run from n rounds to n + 1. -/
theorem computingRegs_refRegs (block : Block) {n : Nat} (hn : n < 64) :
    computingRegs (refRegs block n) = refRegs block (n + 1) := by
  have hround := refRegs_round_toNat hn.le block
  have hlt : (refRegs block n).round.toNat < 64 := hround.trans_lt hn
  have hwr : (computingRegs (refRegs block n)).wr = refWorking block (n + 1) := by
    rw [computingRegs_wr hlt, hround]
    exact congrArg (mixWorking _ _) (sched_refWindow block hn)
  apply CoreRegs.eq_of_fields
  case hh => exact computingRegs_refRegs_h block hn hwr
  case hwr => exact hwr
  case hround =>
    rw [computingRegs_round, round_succ_eq_ofNat, hround]
    rfl
  case hdone =>
    rw [computingRegs_done hlt, hround, refRegs_done, refRegs_done, beq_false_of_ne hn.ne, Bool.false_or,
      Bool.eq_iff_iff, beq_iff_eq, beq_iff_eq, Nat.succ_inj]
  case hw => exact computingRegs_refRegs_w block hn

/-- An edge without start or reset takes the reference run one round on, up to round 64, where it stays. -/
theorem nextRegs_refRegs (block : Block) {n : Nat} (hn : n ≤ 64) {e : InputEvent} (hidle : IdleEvent e) (w : Window) :
    nextRegs (refRegs block n) e w = refRegs block (min (n + 1) 64) := by
  rw [nextRegs_of_idle hidle, refRegs_done]
  rcases hn.lt_or_eq with hlt | rfl
  · rw [beq_false_of_ne hlt.ne, if_neg Bool.false_ne_true, computingRegs_refRegs block hlt, min_eq_left hlt]
  · rfl

/-! ### The invariant of a run -/

theorem onRunOf_of_cur_eq {s : State} {block : Block} {n : Nat} (hn : n ≤ 64) (hcur : s.cur = refRegs block n) :
    s.OnRunOf block := by
  have hround : s.cur.round.toNat = n := by rw [hcur, refRegs_round_toNat hn]
  exact ⟨hround.trans_le hn, by rw [hround, hcur]⟩

/-- Settles O32: a start or reset edge begins the reference run of another block, and any other takes the run one round on. -/
theorem everyEdgeStaysOnARun : Obligations.EveryEdgeStaysOnARun := by
  intro s t block hrun hstep
  obtain ⟨hle, hcur⟩ := hrun
  have hnext := cur_of_step hstep
  cases hrst : s.inEvent.rst with
  | true =>
    rw [nextRegs_of_rst hrst, ← refRegs_zero] at hnext
    exact onRunOf_of_cur_eq (Nat.zero_le 64) hnext
  | false =>
    cases hstart : s.inEvent.start with
    | true =>
      rw [nextRegs_of_start hrst hstart, ← refRegs_zero] at hnext
      exact onRunOf_of_cur_eq (Nat.zero_le 64) hnext
    | false =>
      rw [hcur, nextRegs_refRegs block hle ⟨hrst, hstart⟩] at hnext
      exact onRunOf_of_cur_eq (min_le_right _ _) hnext

end Sys2Proof.Machine

/-! PROOFS. Runs of edges: the state after n edges as a function of the first state and its events, and what it is after a launch,
a start pulse, a reset edge, in Done and under equal inputs. -/

namespace Sys2Proof.Machine

/-! ### The state after n edges -/

/-- The registers after n edges, where every edge has a step. -/
def State.regsAfter (s : State) : Nat → CoreRegs
  | 0 => s.cur
  | n + 1 => nextRegs (s.regsAfter n) (s.eventAt n) s.resetWindow

/-- The state after n edges, where every edge has a step. -/
def State.after (s : State) (n : Nat) : State where
  cur := s.regsAfter n
  resetWindow := s.resetWindow
  stimulus := s.stimulus.drop n
  edge := s.edge + n

@[simp] theorem State.after_cur (s : State) (n : Nat) : (s.after n).cur = s.regsAfter n := rfl

theorem State.regsAfter_succ (s : State) (n : Nat) :
    s.regsAfter (n + 1) = nextRegs (s.regsAfter n) (s.eventAt n) s.resetWindow := rfl

theorem State.inEvent_after (s : State) (n : Nat) : (s.after n).inEvent = s.eventAt n := by
  simp [State.inEvent, State.eventAt, State.after]

/-- One edge more. -/
theorem State.commit_after (s : State) (n : Nat) :
    (s.after n).commit (nextRegs (s.after n).cur (s.after n).inEvent (s.after n).resetWindow) = s.after (n + 1) := by
  rw [State.inEvent_after]
  simp [State.after, State.commit, State.regsAfter_succ, Nat.add_assoc]

/-- From a safe first edge every edge of the run answers: the later ones start in a Valid state. -/
theorem step_after {s : State} (hsafe : s.SafeEdge) (n : Nat) : step (s.after n) = .next (s.after (n + 1)) := by
  rw [← s.commit_after n]
  apply step_eq_commit_nextRegs
  induction n with
  | zero => exact (safeEdge_iff s).mp hsafe
  | succ n ih =>
    have hstep := step_eq_commit_nextRegs ih
    rw [s.commit_after n] at hstep
    exact .inl (valid_of_step hstep)

/-- A run from a safe first edge. -/
theorem runEdges_eq_after {s : State} (hsafe : s.SafeEdge) (n : Nat) : runEdges n s = .next (s.after n) := by
  induction n with
  | zero => rfl
  | succ n ih => rw [runEdges_add ih, runEdges_succ (step_after hsafe n), runEdges_zero]

theorem safeEdge_of_valid {s : State} (hvalid : s.cur.Valid) : s.SafeEdge := (safeEdge_iff s).mpr (.inl hvalid)

theorem safeEdge_of_rst {s : State} (hrst : s.inEvent.rst = true) : s.SafeEdge :=
  (safeEdge_iff s).mpr (.inr fun hidle => Bool.false_ne_true (hidle.1.symm.trans hrst))

theorem safeEdge_of_start {s : State} (hstart : s.inEvent.start = true) : s.SafeEdge :=
  (safeEdge_iff s).mpr (.inr fun hidle => Bool.false_ne_true (hidle.2.symm.trans hstart))

/-! ### Runs on a block -/

/-- From the start of a run, n edges without start or reset are n rounds of the reference run, up to round 64. -/
theorem regsAfter_eq_refRegs {s : State} {block : Block} {m : Nat} (hstart : s.regsAfter m = refRegs block 0) (n : Nat)
    (hidle : ∀ k, m ≤ k → k < m + n → IdleEvent (s.eventAt k)) : s.regsAfter (m + n) = refRegs block (min n 64) := by
  induction n with
  | zero => exact hstart
  | succ n ih =>
    rw [← Nat.add_assoc, State.regsAfter_succ, ih fun k hm hk => hidle k hm (by omega),
      nextRegs_refRegs block (min_le_right n 64) (hidle (m + n) (by omega) (by omega))]
    congr 1
    omega

/-- The launch premise of R124 fixes every register. -/
theorem cur_eq_refRegs_of_launched {s : State} {block : Block} (hlaunched : s.Launched block) :
    s.cur = refRegs block 0 := by
  obtain ⟨hh, hwr, hround, hdone, hw⟩ := hlaunched
  rw [refRegs_zero]
  exact CoreRegs.eq_of_fields hh (Working.eq_ofVector hwr) hround hdone hw

/-- A launched core runs on its block. -/
theorem launched_run {s : State} {block : Block} (hlaunched : s.Launched block) {n : Nat} (hidle : s.IdleFor n) :
    ∃ u, runEdges n s = .next u ∧ u.cur = refRegs block (min n 64) := by
  have hcur := cur_eq_refRegs_of_launched hlaunched
  have hvalid : s.cur.Valid := by
    rw [hcur, refRegs_zero]
    exact valid_loadingRegs block
  have hregs := regsAfter_eq_refRegs (m := 0) hcur n fun k _ hk => hidle k (by omega)
  exact ⟨_, runEdges_eq_after (safeEdge_of_valid hvalid) n, by rwa [Nat.zero_add] at hregs⟩

/-- The recurrence of R86 has one solution on rounds 0 to 63. -/
theorem eq_refSched_of_recurrence {block : Block} {W : Nat → Word} (hblock : ∀ (t : Nat) (_ : t < 16), W t = block[t])
    (hrec : ∀ t, 16 ≤ t → t < 64 → W t = gamma1 (W (t - 2)) + W (t - 7) + gamma0 (W (t - 15)) + W (t - 16))
    (t : Nat) (ht : t < 64) : W t = refSched block t := by
  induction t using Nat.strong_induction_on with
  | _ t ih =>
    by_cases hlow : t < 16
    · rw [hblock t hlow, refSched_block block t hlow]
    · rw [hrec t (by omega) ht, refSched_expanded block t (by omega) ht, ih (t - 2) (by omega) (by omega),
        ih (t - 7) (by omega) (by omega), ih (t - 15) (by omega) (by omega), ih (t - 16) (by omega) (by omega)]

/-- Settles O33: the window is the reference window, whose words any solution of the recurrence has. -/
theorem windowIsASliceOfTheSchedule : Obligations.WindowIsASliceOfTheSchedule := by
  intro s block W hblock hrec hlaunched n hn hidle
  have hW := eq_refSched_of_recurrence hblock hrec
  obtain ⟨u, hrun, hcur⟩ := launched_run hlaunched hidle
  rw [min_eq_left hn] at hcur
  have hw : u.cur.w = refWindow block n := by
    rw [hcur]
    rfl
  refine ⟨u, hrun, by rw [hcur, refRegs_round_toNat hn], fun hlow i hi => ?_, fun hlow i hi => ?_, fun hlt => ?_⟩
  · simp only [hw, refWindow_get _ _ _ hi, Nat.sub_eq_zero_of_le hlow, Nat.zero_add, hW i (by omega)]
  · simp only [hw, refWindow_get _ _ _ hi, hW (n - 16 + i) (by omega)]
  · rw [hw, sched_refWindow block hlt, hW n hlt]

/-- Settles O34. -/
theorem launchedBlockIsCompressed : Obligations.LaunchedBlockIsCompressed := by
  intro s block hlaunched hidle
  obtain ⟨u, hrun, hcur⟩ := launched_run hlaunched hidle
  rw [min_self] at hcur
  refine ⟨u, hrun, ?_⟩
  rw [hcur]
  exact ⟨refRegs_done block 64, rfl, refRegs_h_last block, rfl, fun i hi => refWindow_get block 64 i hi⟩

/-! ### Runs after a start or reset edge -/

/-- After an edge that loads a window, n edges without start or reset run on it, from any state. -/
theorem run_after_loading {s : State} {block : Block} (hsafe : s.SafeEdge) (hloads : s.regsAfter 1 = loadingRegs block)
    {n : Nat} (hidle : ∀ k, 1 ≤ k → k ≤ n → IdleEvent (s.eventAt k)) :
    ∃ u, runEdges (n + 1) s = .next u ∧ u.cur = refRegs block (min n 64) := by
  have hregs := regsAfter_eq_refRegs (hloads.trans (refRegs_zero block).symm) n fun k hk hlt => hidle k hk (by omega)
  exact ⟨_, runEdges_eq_after hsafe (n + 1), by rwa [Nat.add_comm] at hregs⟩

/-- A start pulse and n edges without start or reset, from any state. -/
theorem run_after_start {s : State} (hrst : s.inEvent.rst = false) (hstart : s.inEvent.start = true)
    {n : Nat} (hidle : ∀ k, 1 ≤ k → k ≤ n → IdleEvent (s.eventAt k)) :
    ∃ u, runEdges (n + 1) s = .next u ∧ u.cur = refRegs s.inEvent.block (min n 64) :=
  run_after_loading (safeEdge_of_start hstart) (nextRegs_of_start hrst hstart _ _) hidle

/-- What the core shows after the last round: `done` at 1, and the compression as the digest (R49, R50). -/
theorem outputs_of_finished {u : State} {block : Block} (hcur : u.cur = refRegs block 64) :
    u.doneOut = true ∧ u.digest = compress block := by
  rw [State.doneOut, State.digest, hcur]
  exact ⟨refRegs_done block 64, refRegs_h_last block⟩

/-- Settles O35. -/
theorem startPulseHashesTheBlock : Obligations.StartPulseHashesTheBlock := by
  intro s hrst hstart hidle
  obtain ⟨u, hrun, hcur⟩ := run_after_start hrst hstart hidle
  exact ⟨u, hrun, outputs_of_finished hcur⟩

/-- Settles O36. -/
theorem runAfterResetCompressesTheResetWindow : Obligations.RunAfterResetCompressesTheResetWindow := by
  intro s hrst hidle
  obtain ⟨u, hrun, hcur⟩ := run_after_loading (safeEdge_of_rst hrst) (nextRegs_of_rst hrst _ _) hidle
  exact ⟨u, hrun, outputs_of_finished hcur⟩

/-- Settles O37: the reference run has `done` at 1 in round 64 alone. -/
theorem latencyIsSixtyFiveEdges : Obligations.LatencyIsSixtyFiveEdges := by
  intro s n hrst hstart hidle
  obtain ⟨u, hrun, hcur⟩ := run_after_start hrst hstart hidle
  refine ⟨u, hrun, ?_, ?_⟩
  · rw [hcur, refRegs_round_toNat (min_le_right n 64)]
  · rw [State.doneOut, hcur, refRegs_done, beq_iff_eq]
    omega

/-- Settles O39: the last start edge loads its block, whatever the edges before it left. -/
theorem startHeldHighReloads : Obligations.StartHeldHighReloads := by
  intro s n hheld
  obtain ⟨hrst, hstart⟩ := hheld n le_rfl
  refine ⟨_, runEdges_eq_after (safeEdge_of_start (hheld 0 (Nat.zero_le n)).2) (n + 1), ?_⟩
  have hcur : (s.after (n + 1)).cur = loadingRegs (s.eventAt n).block := nextRegs_of_start hrst hstart _ _
  rw [State.Launched, hcur]
  exact ⟨rfl, Working.toVector_ofVector H0, rfl, rfl, rfl⟩

/-! ### Done -/

/-- Settles O38: by induction on the edges, each of which is HOLD. -/
theorem donePhaseHoldsIndefinitely : Obligations.DonePhaseHoldsIndefinitely := by
  intro s n hvalid hdone hidle
  refine ⟨_, runEdges_eq_after (safeEdge_of_valid hvalid) n, ?_⟩
  rw [State.after_cur]
  induction n with
  | zero => rfl
  | succ n ih =>
    rw [State.regsAfter_succ, ih fun k hk => hidle k (by omega), nextRegs_of_idle (hidle n (by omega)), if_pos hdone]

/-! ### What a run does not depend on -/

/-- Two events agree in what their edge samples: `rst`, `start` where `rst` is 0, and the block of a start (R36, R58). -/
def SampledAlike (e₁ e₂ : InputEvent) : Prop :=
  e₁.rst = e₂.rst ∧ (e₁.rst = false → e₁.start = e₂.start ∧ (e₁.start = true → e₁.block = e₂.block))

theorem nextRegs_congr {e₁ e₂ : InputEvent} (halike : SampledAlike e₁ e₂) (c : CoreRegs) (w : Window) :
    nextRegs c e₁ w = nextRegs c e₂ w := by
  obtain ⟨hrst, hrest⟩ := halike
  cases hrst₁ : e₁.rst with
  | true => rw [nextRegs_of_rst hrst₁, nextRegs_of_rst (hrst.symm.trans hrst₁)]
  | false =>
    have hrst₂ := hrst.symm.trans hrst₁
    obtain ⟨hstart, hblock⟩ := hrest hrst₁
    cases hstart₁ : e₁.start with
    | true =>
      rw [nextRegs_of_start hrst₁ hstart₁, nextRegs_of_start hrst₂ (hstart.symm.trans hstart₁), hblock hstart₁]
    | false => rw [nextRegs_of_idle ⟨hrst₁, hstart₁⟩, nextRegs_of_idle ⟨hrst₂, hstart.symm.trans hstart₁⟩]

/-- Runs that meet after m edges and sample alike from there on stay together. -/
theorem regsAfter_congr {s₁ s₂ : State} {m : Nat} (hmeet : s₁.regsAfter m = s₂.regsAfter m)
    (hwindow : s₁.resetWindow = s₂.resetWindow) (n : Nat)
    (halike : ∀ k, k < m + n → SampledAlike (s₁.eventAt k) (s₂.eventAt k)) :
    s₁.regsAfter (m + n) = s₂.regsAfter (m + n) := by
  induction n with
  | zero => exact hmeet
  | succ n ih =>
    rw [← Nat.add_assoc, State.regsAfter_succ, State.regsAfter_succ, ih fun k hk => halike k (by omega), hwindow,
      nextRegs_congr (halike (m + n) (by omega))]

/-- Settles O40: the runs meet at the LOAD edge, since what it writes is its block's alone. -/
theorem loadLeavesNoResidue : Obligations.LoadLeavesNoResidue := by
  intro s₁ s₂ n hwindow hevents hrst hstart
  have hfirst : s₁.inEvent = s₂.inEvent := hevents 0 (Nat.zero_le n)
  have hmeet : s₁.regsAfter 1 = s₂.regsAfter 1 :=
    calc s₁.regsAfter 1 = loadingRegs s₁.inEvent.block := nextRegs_of_start hrst hstart _ _
      _ = loadingRegs s₂.inEvent.block := by rw [hfirst]
      _ = s₂.regsAfter 1 := (nextRegs_of_start (hfirst ▸ hrst) (hfirst ▸ hstart) _ _).symm
  have hregs := regsAfter_congr hmeet hwindow n fun k hk => by
    rw [hevents k (by omega)]
    exact ⟨rfl, fun _ => ⟨rfl, fun _ => rfl⟩⟩
  refine ⟨_, _, runEdges_eq_after (safeEdge_of_start hstart) (n + 1),
    runEdges_eq_after (safeEdge_of_start (hfirst ▸ hstart)) (n + 1), ?_⟩
  rwa [Nat.add_comm] at hregs

/-- Runs from equal Valid registers under events that sample alike. -/
theorem regsAfter_eq_of_sampledAlike {s₁ s₂ : State} (hcur : s₁.cur = s₂.cur)
    (hwindow : s₁.resetWindow = s₂.resetWindow) {n : Nat}
    (halike : ∀ k, k < n → SampledAlike (s₁.eventAt k) (s₂.eventAt k)) : s₁.regsAfter n = s₂.regsAfter n := by
  have hregs := regsAfter_congr (m := 0) hcur hwindow n (by rwa [Nat.zero_add])
  rwa [Nat.zero_add] at hregs

/-- Settles O41. -/
theorem unsampledInputsDoNotMatter : Obligations.UnsampledInputsDoNotMatter := by
  intro s₁ s₂ n hcur hvalid hwindow halike
  exact ⟨_, _, runEdges_eq_after (safeEdge_of_valid hvalid) n, runEdges_eq_after (safeEdge_of_valid (hcur ▸ hvalid)) n,
    regsAfter_eq_of_sampledAlike hcur hwindow halike⟩

/-- A stimulus line leaves open only what its edge does not sample. -/
theorem sampledAlike_event (line : StimLine) (fill₁ fill₂ : InputEvent) :
    SampledAlike (line.event fill₁) (line.event fill₂) := by
  cases line with
  | rst => exact ⟨rfl, fun hrst => Bool.noConfusion hrst⟩
  | start block => exact ⟨rfl, fun _ => ⟨rfl, fun _ => rfl⟩⟩
  | idle => exact ⟨rfl, fun _ => ⟨rfl, fun hstart => Bool.noConfusion hstart⟩⟩

/-- The event of line k of a written stimulus. -/
theorem eventAt_stimulusEvents (s : State) (lines : List StimLine) (fill : Nat → InputEvent) (k : Nat) (hk : k < lines.length) :
    ({ s with stimulus := stimulusEvents lines fill } : State).eventAt k = lines[k].event (fill k) := by
  rw [State.eventAt_of_lt _ _ (by simpa using hk), stimulusEvents_getElem]

/-- Settles O42: the runs sample alike line by line, and both use up all lines. -/
theorem stimulusLinesRunTheSameWhateverTheFill : Obligations.StimulusLinesRunTheSameWhateverTheFill := by
  intro s lines fill₁ fill₂ hvalid
  have hrun (fill : Nat → InputEvent) :=
    runEdges_eq_after (s := { s with stimulus := stimulusEvents lines fill }) (safeEdge_of_valid hvalid) lines.length
  refine ⟨_, _, hrun fill₁, hrun fill₂, State.eq_of_fields ?_ rfl ?_ rfl⟩
  · apply regsAfter_eq_of_sampledAlike
    case hcur => rfl
    case hwindow => rfl
    case halike =>
      intro k hk
      rw [eventAt_stimulusEvents s lines fill₁ k hk, eventAt_stimulusEvents s lines fill₂ k hk]
      exact sampledAlike_event _ _ _
  · simp [State.after, List.drop_of_length_le]

end Sys2Proof.Machine

/-! PROOFS. The state after reset, the constant tables, the logical shift, and the byte and word orders of the ports and of
padded texts. -/

namespace Sys2Proof.Machine

/-! ### The state after reset -/

/-- Settles O27. -/
theorem resetStateIsWhatAResetEdgeLeaves : Obligations.ResetStateIsWhatAResetEdgeLeaves := by
  refine ⟨rfl, Working.toVector_ofVector H0, rfl, rfl, rfl, fun s hrst hwindow => ⟨_, step_of_rst hrst, ?_⟩⟩
  rw [State.commit_cur, hwindow]
  rfl

/-- Settles O28. -/
theorem resetStateStartsARun : Obligations.ResetStateStartsARun :=
  ⟨valid_loadingRegs _, ⟨rfl, Working.toVector_ofVector H0, rfl, rfl, rfl⟩,
    onRunOf_of_cur_eq (Nat.zero_le 64) (refRegs_zero _).symm⟩

/-! ### The logical shift and the constants -/

/-- Settles O18. -/
theorem shiftRightIsLogical : Obligations.ShiftRightIsLogical := by
  intro x n _
  refine ⟨?_, fun i hi => ?_⟩
  · rw [shr, BitVec.toNat_ushiftRight, Nat.shiftRight_eq_div_pow]
  · rw [shr_getLsbD, BitVec.getLsbD_of_ge x _ (by omega)]

theorem kTable_length : kTable.length = 64 := rfl

/-- Settles O22. -/
theorem roundConstantLookup : Obligations.RoundConstantLookup :=
  ⟨kTable_length, fun _ ht => List.getD_eq_getElem _ _ ht,
    fun _ ht => List.getD_eq_default _ _ (kTable_length.trans_le ht), rfl, rfl⟩

/-- Settles O23: both tables, evaluated entry by entry. -/
theorem constantsAreRootsOfPrimes : Obligations.ConstantsAreRootsOfPrimes := by
  unfold Obligations.ConstantsAreRootsOfPrimes
  decide

/-! ### Bytes and words at the ports -/

/-- Appending a word below another: the upper one is shifted up by the lower one's width. -/
theorem toNat_append_eq_add {m n : Nat} (x : BitVec m) (y : BitVec n) : (x ++ y).toNat = x.toNat * 2 ^ n + y.toNat := by
  rw [BitVec.toNat_append, ← Nat.shiftLeft_add_eq_or_of_lt y.isLt, Nat.shiftLeft_eq]

theorem wordOfBytes_toNat (b₀ b₁ b₂ b₃ : Byte) :
    (wordOfBytes b₀ b₁ b₂ b₃).toNat = b₀.toNat * 2 ^ 24 + b₁.toNat * 2 ^ 16 + b₂.toNat * 2 ^ 8 + b₃.toNat := by
  simp only [wordOfBytes, toNat_append_eq_add]
  omega

/-- Settles O44. -/
theorem blockWordsAreBigEndian : Obligations.BlockWordsAreBigEndian := by
  intro bytes i hi
  rw [blockOfBytes, Vector.getElem_ofFn, wordOfBytes_toNat]

/-- Settles O45. -/
theorem digestBytesAreBigEndian : Obligations.DigestBytesAreBigEndian := by
  intro h i j hi hj
  have hword : (4 * i + j) / 4 = i := by omega
  have hbyte : (4 * i + j) % 4 = j := by omega
  simp only [digestBytes, Vector.getElem_ofFn, hword, hbyte, BitVec.extractLsb'_toNat, Nat.shiftRight_eq_div_pow]

/-- The lowest word of an append is the one appended. -/
theorem extractLsb'_append_low {n : Nat} (x : BitVec n) (y : Word) : (x ++ y).extractLsb' 0 32 = y := by
  rw [BitVec.extractLsb'_append_eq_of_add_le (Nat.le_refl 32), BitVec.extractLsb'_eq_self]

/-- The words above the lowest are those of the upper part. -/
theorem extractLsb'_append_high {n : Nat} (x : BitVec n) (y : Word) (k : Nat) :
    (x ++ y).extractLsb' (k + 32) 32 = x.extractLsb' k 32 := by
  rw [BitVec.extractLsb'_append_eq_of_le (Nat.le_add_left 32 k), Nat.add_sub_cancel]

/-- Word i is reached by taking the `15 - i` words below it off the packed block. -/
theorem extractLsb'_packBlock (block : Block) (i : Nat) (hi : i < 16) :
    (packBlock block).extractLsb' (480 - 32 * i) 32 = block[i] := by
  rw [packBlock]
  interval_cases i <;>
    simp only [Nat.reduceMul, Nat.reduceSub, extractLsb'_append_low, extractLsb'_append_high, BitVec.extractLsb'_eq_self]

/-- Settles O46. -/
theorem packedBlockHasWordZeroOnTop : Obligations.PackedBlockHasWordZeroOnTop := by
  intro block
  refine ⟨extractLsb'_packBlock block, ?_⟩
  ext1 i hi
  rw [unpackBlock, Vector.getElem_ofFn, extractLsb'_packBlock block i hi]

/-! ### Padding -/

theorem paddedBytes_eq (text : List Byte) :
    paddedBytes text = text ++ 0x80 :: (List.replicate (55 - text.length) 0 ++ lengthBytes text) := by
  simp only [paddedBytes, List.append_assoc, List.cons_append, List.nil_append]

theorem paddedBytes_getD_text (text : List Byte) (k : Nat) (hk : k < text.length) :
    (paddedBytes text).getD k 0 = text[k] := by
  rw [paddedBytes_eq, List.getD_append _ _ _ _ hk, List.getD_eq_getElem _ _ hk]

theorem paddedBytes_getD_marker (text : List Byte) : (paddedBytes text).getD text.length 0 = 0x80 := by
  rw [paddedBytes_eq, List.getD_append_right _ _ _ _ le_rfl, Nat.sub_self, List.getD_cons_zero]

/-- Behind the marker stand the zero bytes and the length. -/
theorem paddedBytes_getD_behind_marker (text : List Byte) (j : Nat) :
    (paddedBytes text).getD (text.length + 1 + j) 0 =
      (List.replicate (55 - text.length) 0 ++ lengthBytes text).getD j 0 := by
  rw [paddedBytes_eq, List.getD_append_right _ _ _ _ (by omega), show text.length + 1 + j - text.length = j + 1 by omega,
    List.getD_cons_succ]

theorem paddedBytes_getD_zero (text : List Byte) (k : Nat) (hk : k < 56) (hbehind : text.length < k) :
    (paddedBytes text).getD k 0 = 0 := by
  obtain ⟨j, rfl⟩ := Nat.exists_eq_add_of_le hbehind
  have hj : j < 55 - text.length := by omega
  rw [paddedBytes_getD_behind_marker, List.getD_append _ _ _ _ (by rwa [List.length_replicate]), List.getD_replicate _ hj]

theorem paddedBytes_getD_length (text : List Byte) (hlen : text.length ≤ 55) (j : Nat) (hj : j < 8) :
    (paddedBytes text).getD (56 + j) 0 = BitVec.ofNat 8 (8 * text.length / 2 ^ (8 * (7 - j))) := by
  have hreplicate : (List.replicate (55 - text.length) (0 : Byte)).length = 55 - text.length := List.length_replicate
  rw [show 56 + j = text.length + 1 + (55 - text.length + j) by omega, paddedBytes_getD_behind_marker,
    List.getD_append_right _ _ _ _ (by omega), hreplicate, Nat.add_sub_cancel_left,
    List.getD_eq_getElem _ _ (by simpa [lengthBytes] using hj)]
  simp [lengthBytes]

/-- Settles O43: the padded string, byte by byte. -/
theorem startMessageIsPadded : Obligations.StartMessageIsPadded := by
  intro text
  refine ⟨fun hlen => ⟨Vector.ofFn fun k => (paddedBytes text).getD k.val 0, if_pos hlen, ?_⟩, fun hlong => if_neg (by omega)⟩
  simp only [Vector.getElem_ofFn]
  refine ⟨fun k hk _ => paddedBytes_getD_text text k hk, fun _ => paddedBytes_getD_marker text,
    fun k hk hbehind => paddedBytes_getD_zero text k hk hbehind, fun j hj => ?_⟩
  rw [paddedBytes_getD_length text hlen j hj, BitVec.toNat_ofNat, show 8 * (7 - j) = 56 - 8 * j by omega]

end Sys2Proof.Machine
